-- ==== Sys2Proof/Word.lean ====
section
/-! DEFINITION. The machine word and the conversions between patterns and integers (spec/00_scope.md, rule R8), at any
width: the width of a machine's words is its parameter `XLEN` (R6). -/

namespace Sys2Proof

/-- A pattern of `n` bits (R8). -/
abbrev Word (n : Nat) := BitVec n

/-- The unsigned value of a pattern (R8). -/
abbrev uval {n : Nat} (p : Word n) : Nat := p.toNat

/-- The two's-complement value of a pattern (R8). -/
abbrev sval {n : Nat} (p : Word n) : Int := p.toInt

/-- The unique pattern of `n` bits congruent to `v` modulo `2^n` (R8). -/
abbrev wrap {n : Nat} (v : Int) : Word n := BitVec.ofInt n v

end Sys2Proof
end

