-- ==== Sys2Proof/Config.lean ====
section
/-! DEFINITION. The implementation parameters of rule R6 (spec/00_scope.md) and the one free value, the
draw of rule R54 (spec/20_memory.md). -/

namespace Sys2Proof.Config

/-- What `LW` from a never-written data address does (R6, R54; left OPEN by D18), on words of `xlen` bits. -/
inductive UnwrittenLoad (xlen : Nat) where
  /-- The load raises `MEMORY_FAULT`. -/
  | fault
  /-- The load returns one fixed value. -/
  | value (d : Word xlen)
  /-- The load returns an unconstrained value, drawn afresh by each read. -/
  | any
  deriving DecidableEq, Repr

/-- The parameters the model takes as arguments (R6). A state is a state of the machine with its parameters, and
nothing changes them (log entries 1 and 2). -/
structure Params where
  /-- `NREG`, the number of general registers. -/
  nreg : Nat
  /-- The register file has exactly 32 entries (R20, R47). -/
  nreg_eq : nreg = 32
  /-- `NFLAG`, the number of flags. -/
  nflag : Nat
  /-- The flag set has exactly seven flags (R25, R47). -/
  nflag_eq : nflag = 7
  /-- `XLEN`, the width of a register, a memory word, the PC and a call-stack entry. -/
  xlen : Nat
  /-- The rules are written for any `XLEN >= 8` (D1). -/
  xlen_ge : 8 ≤ xlen
  /-- `RET_EMPTY_IS_ERROR`. -/
  retEmptyIsError : Bool
  /-- `UNWRITTEN_LOAD`. -/
  unwrittenLoad : UnwrittenLoad xlen
  /-- `CS_DEPTH`; `none` is unbounded. -/
  csDepth : Option Nat
  deriving DecidableEq, Repr

/-- The values rule R6 takes: `NREG = 32`, `NFLAG = 7`, `XLEN = 32`, `RET_EMPTY_IS_ERROR = false`, `CS_DEPTH` unbounded.
DESIGN CHOICE: `UNWRITTEN_LOAD`, which the spec leaves OPEN, is its widest value `Any` (log entry 3). Safe: no
statement rests on it. -/
def specParams : Params :=
  { nreg := 32
    nreg_eq := rfl
    nflag := 7
    nflag_eq := rfl
    xlen := 32
    xlen_ge := by decide
    retEmptyIsError := false
    unwrittenLoad := .any
    csDepth := none }

/-- FREE VALUE: the word of `xlen` bits that draw number `n` of R54's `Any` returns. It has no body, so nothing can be
proved about it beyond its type (log entry 4). Safe. -/
opaque drawWord (xlen n : Nat) : Word xlen

end Sys2Proof.Config
end

