-- ==== Sys2Proof/Syntax.lean ====
section
/-! DEFINITION. Instructions: the text they are written in and the decoded record of rule R86
(spec/30_encoding.md). One constructor of `Instr` per row of spec/opcode_table.json. -/

namespace Sys2Proof

/-- A string of characters, read from left to right (R70; log entry 9). -/
abbrev Text := List Char

/-- A register index, 0 to 31: decoding does not depend on `NREG` (R7, R76, R86). -/
abbrev RegIdx := Fin 32

/-- A flag literal's 7-bit pattern: decoding does not depend on `NFLAG` (R7, R78). -/
abbrev FlagLiteral := BitVec 7

/-- A decoded instruction (R86). An offset or immediate is held as its signed value `v`, for which the spec holds the
pattern `wrap(v)` with `sval(wrap(v)) = v` (R80; log entry 18), so that an instruction is the same at every width. -/
inductive Instr where
  /-- `MOV Rd Rs` (R132). -/
  | mov (d r : RegIdx)
  /-- `ADD Rd Rs` (R133). -/
  | add (d r : RegIdx)
  /-- `SUB Rd Rs` (R134). -/
  | sub (d r : RegIdx)
  /-- `MUL Rd Rs` (R135). -/
  | mul (d r : RegIdx)
  /-- `DIV Rd Rs` (R136). -/
  | div (d r : RegIdx)
  /-- `AND Rd Rs` (R137). -/
  | and (d r : RegIdx)
  /-- `OR Rd Rs` (R138). -/
  | or (d r : RegIdx)
  /-- `NOT Rd Rs` (R139). -/
  | not (d r : RegIdx)
  /-- `SHL Rd Rs` (R140). -/
  | shl (d r : RegIdx)
  /-- `SHR Rd Rs` (R141). -/
  | shr (d r : RegIdx)
  /-- `CMP Ra Rb` (R160). -/
  | cmp (a b : RegIdx)
  /-- `LW Rt off(Rb)` (R170). -/
  | lw (t : RegIdx) (off : Int) (b : RegIdx)
  /-- `SW Rt off(Rb)` (R171). -/
  | sw (t : RegIdx) (off : Int) (b : RegIdx)
  /-- `JPC off` (R181). -/
  | jpc (off : Int)
  /-- `JR Rb` (R182). -/
  | jr (b : RegIdx)
  /-- `CALL Rb` (R185). -/
  | call (b : RegIdx)
  /-- `RET` (R187, R188). -/
  | ret
  /-- `BRFL Rb e m` (R190). -/
  | brfl (b : RegIdx) (e m : FlagLiteral)
  /-- `NOP` (R192). -/
  | nop
  deriving DecidableEq, Repr

/-- The 19 mnemonics (R85). -/
inductive Opcode where
  | mov | add | sub | mul | div | and | or | not | shl | shr | cmp
  | lw | sw | jpc | jr | call | ret | brfl | nop
  deriving DecidableEq, Repr

/-- The mnemonic of an instruction (R86, field `op`). -/
def Instr.opcode : Instr → Opcode
  | .mov _ _ => .mov
  | .add _ _ => .add
  | .sub _ _ => .sub
  | .mul _ _ => .mul
  | .div _ _ => .div
  | .and _ _ => .and
  | .or _ _ => .or
  | .not _ _ => .not
  | .shl _ _ => .shl
  | .shr _ _ => .shr
  | .cmp _ _ => .cmp
  | .lw _ _ _ => .lw
  | .sw _ _ _ => .sw
  | .jpc _ => .jpc
  | .jr _ => .jr
  | .call _ => .call
  | .ret => .ret
  | .brfl _ _ _ => .brfl
  | .nop => .nop

/-- The six formats (R81). -/
inductive Format where
  | RR | RM | I | R | RLL | N
  deriving DecidableEq, Repr

/-- The kinds of an operand token (R76 to R79). -/
inductive OperandKind where
  /-- A register operand (R76). -/
  | register
  /-- A memory operand `off(Rb)` (R77). -/
  | memory
  /-- An immediate (R79). -/
  | immediate
  /-- A flag literal (R78). -/
  | flagLiteral
  deriving DecidableEq, Repr

/-- The three causes a string that is no instruction can raise (R87). -/
inductive DecodeCause where
  /-- Empty string, wrong operand count, operand token of the wrong shape, numeral out of range (R73 to R82). -/
  | malformedInstruction
  /-- The opcode token is no mnemonic (R74). -/
  | unknownOpcode
  /-- A register token `R<n>` with `n > 31` (R76, R77). -/
  | outOfRangeRegister
  deriving DecidableEq, Repr

end Sys2Proof
end

