-- ==== Sys2Proof/Decode.lean ====
section
/-! DEFINITION. The instruction decoder, total on every string, and the encoder
(spec/30_encoding.md, rules R70 to R90). -/

namespace Sys2Proof

/-! ## The opcode map (R81, R85) -/

/-- The mnemonic's characters (R85). -/
def Opcode.token : Opcode → Text
  | .mov => "MOV".toList
  | .add => "ADD".toList
  | .sub => "SUB".toList
  | .mul => "MUL".toList
  | .div => "DIV".toList
  | .and => "AND".toList
  | .or => "OR".toList
  | .not => "NOT".toList
  | .shl => "SHL".toList
  | .shr => "SHR".toList
  | .cmp => "CMP".toList
  | .lw => "LW".toList
  | .sw => "SW".toList
  | .jpc => "JPC".toList
  | .jr => "JR".toList
  | .call => "CALL".toList
  | .ret => "RET".toList
  | .brfl => "BRFL".toList
  | .nop => "NOP".toList

/-- The mnemonic's format (R81). -/
def Opcode.format : Opcode → Format
  | .mov | .add | .sub | .mul | .div | .and | .or | .not | .shl | .shr | .cmp => .RR
  | .lw | .sw => .RM
  | .jpc => .I
  | .jr | .call => .R
  | .brfl => .RLL
  | .ret | .nop => .N

/-- The whole instruction set (R85). -/
def Opcode.all : List Opcode :=
  [.mov, .add, .sub, .mul, .div, .and, .or, .not, .shl, .shr, .cmp,
    .lw, .sw, .jpc, .jr, .call, .ret, .brfl, .nop]

/-- The mnemonic an opcode token equals, character for character (R74). -/
def Opcode.ofToken? (t : Text) : Option Opcode := Opcode.all.find? fun o => o.token = t

/-! ## Tokens (R71) -/

/-- The six ASCII whitespace characters (R71). -/
def isSeparator (c : Char) : Bool :=
  c.toNat = 0x20 || c.toNat = 0x09 || c.toNat = 0x0A || c.toNat = 0x0B || c.toNat = 0x0C || c.toNat = 0x0D

/-- `split` with `cur`, the characters of the token that is being read. -/
def splitFrom (cur : Text) : Text → List Text
  | [] => if cur = [] then [] else [cur]
  | c :: cs =>
    if isSeparator c then
      if cur = [] then splitFrom [] cs else cur :: splitFrom [] cs
    else splitFrom (cur ++ [c]) cs

/-- The maximal runs of characters that are not separators (R71). -/
def split (str : Text) : List Text := splitFrom [] str

/-! ## Operand tokens (R75 to R80) -/

/-- `[0-9]`. -/
def isDigit (c : Char) : Bool := decide (48 ≤ c.toNat) && decide (c.toNat ≤ 57)

/-- The value a run of decimal digits spells (R75, R76). -/
def digitsValue (ds : Text) : Nat := ds.foldl (fun v c => 10 * v + (c.toNat - 48)) 0

/-- `[0-9]+` and its value. -/
def parseDigits (ds : Text) : Option Nat :=
  if ds ≠ [] ∧ ds.all isDigit = true then some (digitsValue ds) else none

/-- `[+-]?[0-9]+` and its value (R75). -/
def parseNumeral : Text → Option Int
  | [] => none
  | c :: cs =>
    if c = '+' then (parseDigits cs).map fun v => (v : Int)
    else if c = '-' then (parseDigits cs).map fun v => -(v : Int)
    else (parseDigits (c :: cs)).map fun v => (v : Int)

/-- The signed range of `xlen` bits (R80). -/
abbrev inSignedRange (xlen : Nat) (v : Int) : Prop := -2 ^ (xlen - 1) ≤ v ∧ v ≤ 2 ^ (xlen - 1) - 1

/-- A register operand `R[0-9]+` (R76). -/
def parseRegister : Text → Except DecodeCause RegIdx
  | [] => .error .malformedInstruction
  | c :: cs =>
    if c = 'R' then
      match parseDigits cs with
      | none => .error .malformedInstruction
      | some n => if h : n < 32 then .ok ⟨n, h⟩ else .error .outOfRangeRegister
    else .error .malformedInstruction

/-- An immediate operand (R79), and the offset of a memory operand: a numeral in range (R80). -/
def parseImmediate (xlen : Nat) (t : Text) : Except DecodeCause Int :=
  match parseNumeral t with
  | none => .error .malformedInstruction
  | some v => if inSignedRange xlen v then .ok v else .error .malformedInstruction

/-- The offset and the base of `off(Rb)`: what stands before the first `(`, and what stands between it and a final
`)` (R77). -/
def memoryParts (t : Text) : Option (Text × Text) :=
  match t.dropWhile (fun c => c ≠ '(') with
  | [] => none
  | _ :: inner =>
    if inner.getLast? = some ')' then some (t.takeWhile (fun c => c ≠ '('), inner.dropLast) else none

/-- A memory operand `[+-]?[0-9]+\(R[0-9]+\)`, the offset checked before the base (R77). -/
def parseMemory (xlen : Nat) (t : Text) : Except DecodeCause (Int × RegIdx) :=
  match memoryParts t with
  | none => .error .malformedInstruction
  | some (offset, base) => do
    let off ← parseImmediate xlen offset
    let b ← parseRegister base
    .ok (off, b)

/-- `0` or `1`. -/
def isBinaryDigit (c : Char) : Bool := c = '0' || c = '1'

/-- The pattern of a string of binary digits, the leftmost the most significant (R26, R78). -/
def flagPattern (t : Text) : FlagLiteral :=
  BitVec.ofNat 7 (t.foldl (fun v c => 2 * v + if c = '1' then 1 else 0) 0)

/-- A flag literal `[01]{7}` (R78). -/
def parseFlagLiteral (t : Text) : Except DecodeCause FlagLiteral :=
  if t.length = 7 ∧ t.all isBinaryDigit = true then .ok (flagPattern t)
  else .error .malformedInstruction

/-! ## Formats (R81 to R83): the operand count, then the operands from left to right -/

/-- Format RR. -/
def decodeRR (mk : RegIdx → RegIdx → Instr) : List Text → Except DecodeCause Instr
  | [t₁, t₂] => do
    let d ← parseRegister t₁
    let r ← parseRegister t₂
    .ok (mk d r)
  | _ => .error .malformedInstruction

/-- Format RM. -/
def decodeRM (xlen : Nat) (mk : RegIdx → Int → RegIdx → Instr) : List Text → Except DecodeCause Instr
  | [t₁, t₂] => do
    let t ← parseRegister t₁
    let m ← parseMemory xlen t₂
    .ok (mk t m.1 m.2)
  | _ => .error .malformedInstruction

/-- Format I. -/
def decodeI (xlen : Nat) (mk : Int → Instr) : List Text → Except DecodeCause Instr
  | [t₁] => do
    let off ← parseImmediate xlen t₁
    .ok (mk off)
  | _ => .error .malformedInstruction

/-- Format R. -/
def decodeR (mk : RegIdx → Instr) : List Text → Except DecodeCause Instr
  | [t₁] => do
    let b ← parseRegister t₁
    .ok (mk b)
  | _ => .error .malformedInstruction

/-- Format RLL. -/
def decodeRLL (mk : RegIdx → FlagLiteral → FlagLiteral → Instr) : List Text → Except DecodeCause Instr
  | [t₁, t₂, t₃] => do
    let b ← parseRegister t₁
    let e ← parseFlagLiteral t₂
    let m ← parseFlagLiteral t₃
    .ok (mk b e m)
  | _ => .error .malformedInstruction

/-- Format N. -/
def decodeN (i : Instr) : List Text → Except DecodeCause Instr
  | [] => .ok i
  | _ => .error .malformedInstruction

/-- The operand tokens of a known mnemonic (R83, R86). -/
def decodeOperands (xlen : Nat) : Opcode → List Text → Except DecodeCause Instr
  | .mov => decodeRR .mov
  | .add => decodeRR .add
  | .sub => decodeRR .sub
  | .mul => decodeRR .mul
  | .div => decodeRR .div
  | .and => decodeRR .and
  | .or => decodeRR .or
  | .not => decodeRR .not
  | .shl => decodeRR .shl
  | .shr => decodeRR .shr
  | .cmp => decodeRR .cmp
  | .lw => decodeRM xlen .lw
  | .sw => decodeRM xlen .sw
  | .jpc => decodeI xlen .jpc
  | .jr => decodeR .jr
  | .call => decodeR .call
  | .ret => decodeN .ret
  | .brfl => decodeRLL .brfl
  | .nop => decodeN .nop

/-- A tokenized string, in the check order of R83. -/
def decodeTokens (xlen : Nat) : List Text → Except DecodeCause Instr
  | [] => .error .malformedInstruction
  | op :: ops =>
    match Opcode.ofToken? op with
    | none => .error .unknownOpcode
    | some o => decodeOperands xlen o ops

/-- The decoder: a total function of the string and of `XLEN` alone (R83, R87). -/
def decode (xlen : Nat) (str : Text) : Except DecodeCause Instr := decodeTokens xlen (split str)

/-! ## The encoder: the canonical spelling of an instruction (R85, R90; log entry 12) -/

/-- A decimal digit's character. -/
def digitChar (n : Nat) : Char := Char.ofNat (48 + n)

/-- The decimal digits of `n`, at most `fuel` of them. -/
def decimalDigits : (fuel : Nat) → (n : Nat) → Text
  | 0, _ => []
  | fuel + 1, n => if n < 10 then [digitChar n] else decimalDigits fuel (n / 10) ++ [digitChar (n % 10)]

/-- A natural number in decimal: a number `n` has at most `n + 1` digits. -/
def renderNat (n : Nat) : Text := decimalDigits (n + 1) n

/-- A signed integer in decimal, with a `-` where it is negative (R75). -/
def renderInt (v : Int) : Text := if v < 0 then '-' :: renderNat v.natAbs else renderNat v.natAbs

/-- `R<n>` (R76). -/
def renderRegister (r : RegIdx) : Text := 'R' :: renderNat r.val

/-- `<off>(R<b>)` (R77). -/
def renderMemory (off : Int) (b : RegIdx) : Text := renderInt off ++ '(' :: (renderRegister b ++ [')'])

/-- Seven binary digits, character `k` from the left being bit `6-k` (R78). -/
def renderFlagLiteral (l : FlagLiteral) : Text :=
  (List.range 7).map fun k => if l.getLsbD (6 - k) then '1' else '0'

/-- The operand tokens of an instruction, in the order of R81. -/
def Instr.operandTokens : Instr → List Text
  | .mov d r | .add d r | .sub d r | .mul d r | .div d r | .and d r | .or d r | .not d r | .shl d r | .shr d r
  | .cmp d r => [renderRegister d, renderRegister r]
  | .lw t off b | .sw t off b => [renderRegister t, renderMemory off b]
  | .jpc off => [renderInt off]
  | .jr b | .call b => [renderRegister b]
  | .brfl b e m => [renderRegister b, renderFlagLiteral e, renderFlagLiteral m]
  | .ret | .nop => []

/-- The opcode token and the operand tokens. -/
def Instr.tokens (i : Instr) : List Text := i.opcode.token :: i.operandTokens

/-- Tokens separated by single spaces (R13). -/
def joinTokens : List Text → Text
  | [] => []
  | [t] => t
  | t :: ts => t ++ ' ' :: joinTokens ts

/-- The canonical text of an instruction. -/
def encode (i : Instr) : Text := joinTokens i.tokens

/-! ## Text packed in a number (log entry 10) -/

/-- `t` without the NUL characters at its end. -/
def dropTrailingNuls (t : Text) : Text := (t.reverse.dropWhile fun c => c.toNat = 0).reverse

/-- The text of `nbits` bits of `w`, one character a byte, the first character in bits 7..0. DESIGN CHOICE: the spec
has no binary form of an instruction; zero bytes at the end are padding. Safe: no run reads a packed text. -/
def textOfBits (nbits w : Nat) : Text :=
  dropTrailingNuls ((List.range (nbits / 8)).map fun k => Char.ofNat (w / 2 ^ (8 * k) % 256))

/-- What the decoder of the machine at the spec's width reads from a text packed in `nbits` bits. -/
def decodeTableWord (nbits w : Nat) : Option Instr :=
  match decode Config.specParams.xlen (textOfBits nbits w) with
  | .ok i => some i
  | .error _ => none

end Sys2Proof
end

