-- ==== Sys2Proof/Machine/State.lean ====
section
/-! DEFINITION. The architectural state as plain data (spec/10_state.md, rules R20 to R48), the memory port's two
spaces (spec/20_memory.md, R50), and what a step can stop with. -/

namespace Sys2Proof.Machine

/-- The seven one-bit flags, in canonical order (R25). -/
structure Flags where
  /-- `F.OV`, overflow. -/
  ov : Bool
  /-- `F.AB`, above. -/
  ab : Bool
  /-- `F.EQ`, equal. -/
  eq : Bool
  /-- `F.BE`, below. -/
  be : Bool
  /-- `F.BT`, between. -/
  bt : Bool
  /-- `F.CO`, collision. -/
  co : Bool
  /-- `F.ER`, error. -/
  er : Bool
  deriving DecidableEq, Repr

/-- The run state (R40). -/
inductive RunStatus where
  | running | haltedNormal | haltedError
  deriving DecidableEq, Repr

/-- The `info` of an arithmetic fault (R43, R201). -/
inductive ArithmeticInfo where
  | divZero | negShift
  deriving DecidableEq, Repr

/-- The `cause` register (R41, R201); the info bit stands with the one cause that has it (log entry 14). -/
inductive Cause where
  | none
  | retEmptyStack
  | unknownOpcode
  | malformedInstruction
  | outOfRangeRegister
  | arithmeticFault (info : ArithmeticInfo)
  | fetchFault
  | memoryFault
  | callStackOverflow
  deriving DecidableEq, Repr

/-- One written data cell of a machine with words of `n` bits: its address's unsigned value, and its word. The spec's
smallest unit is the word (R53, R57; log entry 7). -/
abbrev Cell (n : Nat) := Nat × Word n

/-- The written cells of the data memory, by rising address; an address that is not listed is unwritten (R54). -/
abbrev Memory (n : Nat) := List (Cell n)

/-- The architectural state of the CORE with the parameters `p`, and of the two spaces behind its memory port. -/
structure Arch (p : Config.Params) where
  /-- `x[0..31]`, `NREG` registers (R20). -/
  regs : Vector (Word p.xlen) p.nreg
  /-- `F` (R25). -/
  flags : Flags
  /-- `pc` (R32). -/
  pc : Word p.xlen
  /-- `CS`, top = last (R36). -/
  cs : List (Word p.xlen)
  /-- `status` (R40). -/
  status : RunStatus
  /-- `cause` (R41). -/
  cause : Cause
  /-- `PROG`, the instruction store (R51). -/
  prog : List Text
  /-- `M`, the data memory (R53). -/
  mem : Memory p.xlen
  /-- How many draws of R54's `Any` have been made (log entry 4). The model's own field. -/
  draws : Nat
  deriving DecidableEq, Repr

/-- The machine's state: the parameters of R6 it is built with, and its architectural state. -/
structure State where
  /-- The parameters, which nothing writes (log entry 2). -/
  params : Config.Params
  /-- The architectural state. -/
  arch : Arch params
  deriving DecidableEq, Repr

/-- What a step stops with. -/
inductive Fault where
  /-- Raised by `step` alone, when `status` is not RUNNING: the step has no transition (R111). Safe: the model
  stops where nothing can go on, and no instruction is involved (log entry 5). -/
  | noStep
  deriving DecidableEq, Repr

/-- What a step refuses with. -/
inductive Refusal where
  /-- Raised by an arm of `exec` whose instruction has no meaning yet; no arm of this model does. Safe. -/
  | notModelled (mnemonic : String)
  deriving DecidableEq, Repr

/-- Power-on, which the spec calls construction (R48, R231): registers, flags, pc zero, the call stack empty, RUNNING,
no cause. The instruction store and the data memory are what the host loads; nothing is loaded yet (log entry 8). -/
def Arch.powerOn (p : Config.Params) : Arch p :=
  { regs := Vector.replicate p.nreg 0
    flags := ⟨false, false, false, false, false, false, false⟩
    pc := 0
    cs := []
    status := .running
    cause := .none
    prog := []
    mem := []
    draws := 0 }

/-- The machine right after power-on, with the parameters rule R6 takes (log entry 3). -/
def State.reset : State := { params := Config.specParams, arch := Arch.powerOn Config.specParams }

end Sys2Proof.Machine
end

