-- ==== Sys2Proof/Machine/Ops.lean ====
section
/-! DEFINITION. The named operations over the state: registers, the program counter, the call stack, the memory port
and the two halts (spec/00_scope.md R9 to R11, spec/20_memory.md, spec/60_exceptions.md R204 to R206). -/

namespace Sys2Proof.Machine

/-- What an instruction answers. -/
abbrev Result := Host.Outcome State Fault Refusal

variable {p : Config.Params} {n : Nat}

/-! ## Registers (R20, R21) -/

/-- `i` is the index of one of the `NREG` registers (R20). -/
theorem regIdx_lt (p : Config.Params) (i : RegIdx) : i.val < p.nreg := p.nreg_eq.symm ▸ i.isLt

/-- `x[i]`. -/
def Arch.readReg (s : Arch p) (i : RegIdx) : Word p.xlen := s.regs[i.val]'(regIdx_lt p i)

/-- `x[i] <- v`. -/
def Arch.writeReg (s : Arch p) (i : RegIdx) (v : Word p.xlen) : Arch p :=
  { s with regs := s.regs.set i.val v (regIdx_lt p i) }

/-! ## Program counter (R33, R113) -/

/-- `wrap(uval(pc) + 1)`. -/
def nextPc (pc : Word n) : Word n := wrap ((uval pc : Int) + 1)

/-- The step's next PC is `target`. -/
def Arch.jump (s : Arch p) (target : Word p.xlen) : Arch p := { s with pc := target }

/-- The step's next PC is the following instruction's address. -/
def Arch.advance (s : Arch p) : Arch p := s.jump (nextPc s.pc)

/-! ## Flags (R25) -/

/-- `F <- f`. -/
def Arch.setFlags (s : Arch p) (f : Flags) : Arch p := { s with flags := f }

/-! ## Call stack (R36) -/

/-- `push(CS, v)`. -/
def Arch.pushCall (s : Arch p) (v : Word p.xlen) : Arch p := { s with cs := s.cs ++ [v] }

/-- `pop(CS)`: the most recently pushed entry and the state without it; `none` on an empty stack. -/
def Arch.popCall (s : Arch p) : Option (Word p.xlen × Arch p) :=
  match s.cs.getLast? with
  | none => none
  | some v => some (v, { s with cs := s.cs.dropLast })

/-- `len(CS) = CS_DEPTH`; never, when `CS_DEPTH` is unbounded (R37, R185). -/
def Arch.callStackFull (s : Arch p) : Bool := p.csDepth = some s.cs.length

/-! ## Data memory (R53 to R55) -/

/-- The word of the cell at address value `a`; `none` where the cell is unwritten. -/
def Memory.readAt : Memory n → Nat → Option (Word n)
  | [], _ => none
  | (k, v) :: m, a => if k = a then some v else Memory.readAt m a

/-- The cells with the cell at `a` written. -/
def Memory.writeAt : Memory n → Nat → Word n → Memory n
  | [], a, v => [(a, v)]
  | (k, w) :: m, a, v =>
    if a < k then (a, v) :: (k, w) :: m
    else if a = k then (a, v) :: m
    else (k, w) :: Memory.writeAt m a v

/-- The cells with the cell at `a` unwritten. -/
def Memory.clearAt : Memory n → Nat → Memory n
  | [], _ => []
  | (k, w) :: m, a => if k = a then m else (k, w) :: Memory.clearAt m a

/-- The word written at data address `a`; `none` where it is unwritten. The model's read of one cell. -/
def Memory.read (m : Memory n) (a : Word n) : Option (Word n) := Memory.readAt m (uval a)

/-- `M[a] <- v`, and `a` is written (R55). -/
def Memory.write (m : Memory n) (a v : Word n) : Memory n := Memory.writeAt m (uval a) v

/-- `a` is unwritten (R218, clear). -/
def Memory.clear (m : Memory n) (a : Word n) : Memory n := Memory.clearAt m (uval a)

/-- The canonical form: addresses strictly rising, each an `XLEN`-bit address. -/
def Memory.wf (m : Memory n) : Bool := decide (m.Pairwise (fun c c' => c.1 < c'.1) ∧ ∀ c ∈ m, c.1 < 2 ^ n)

/-! ## The memory port (R10, R52, R54, R55) -/

/-- `Fetch(pc)`: the instruction string at `pc`; `none` where no instruction is loaded (R52). -/
def fetch (s : Arch p) : Option Text := s.prog[uval s.pc]?

/-- `MemRead(a, 1)`: the word and the state after the read; `none` where it raises `MEMORY_FAULT` (R54). -/
def memRead (s : Arch p) (a : Word p.xlen) : Option (Word p.xlen × Arch p) :=
  match Memory.read s.mem a with
  | some v => some (v, s)
  | none =>
    match p.unwrittenLoad with
    | .fault => none
    | .value d => some (d, s)
    | .any => some (Config.drawWord p.xlen s.draws, { s with draws := s.draws + 1 })

/-- `MemWrite(a, 1, v)`; it never fails (R55). -/
def memWrite (s : Arch p) (a v : Word p.xlen) : Arch p := { s with mem := Memory.write s.mem a v }

/-! ## Halts: the CORE's exceptions (R11, R204 to R206) -/

/-- The state an error halt leaves: `F.ER`, `status` and `cause` are written and nothing else (R204). -/
def Arch.errorHalt (c : Cause) (s : Arch p) : Arch p :=
  { s with flags := { s.flags with er := true }, status := .haltedError, cause := c }

/-- The state a normal halt leaves: `status` and `cause` are written and nothing else (R205). -/
def Arch.normalHalt (c : Cause) (s : Arch p) : Arch p := { s with status := .haltedNormal, cause := c }

/-- `raise C` (R204). The halted state is a next state (log entry 6). -/
def raise (c : Cause) (s : Arch p) : Result := .next ⟨p, s.errorHalt c⟩

/-- `halt_normal(C)` (R205). -/
def haltNormal (c : Cause) (s : Arch p) : Result := .next ⟨p, s.normalHalt c⟩

/-- The cause a decode failure raises (R84, R87). -/
def decodeCauseToCause : DecodeCause → Cause
  | .malformedInstruction => .malformedInstruction
  | .unknownOpcode => .unknownOpcode
  | .outOfRangeRegister => .outOfRangeRegister

/-! ## Shapes shared by the meanings -/

/-- `x[d] <- v` and on to the next instruction (R130). -/
def writeBack (d : RegIdx) (v : Word p.xlen) (s : Arch p) : Result := .next ⟨p, (s.writeReg d v).advance⟩

end Sys2Proof.Machine
end

