-- ==== Sys2Proof/Machine/Operands.lean ====
section
/-! DEFINITION. Operand forms: the one addressing mode (spec/43_load_store.md, R172), the relative target
(spec/44_control_flow.md, R181) and the register shift amount (spec/41_arith_logic.md, R140, R141). A register operand
is `Arch.readReg`; an immediate and a flag literal are the decoded record's own fields (R86), an offset's pattern being
`wrap off` (R80; log entry 18). -/

namespace Sys2Proof.Machine

variable {p : Config.Params} {n : Nat}

/-- `EA = wrap(sval(x[b]) + sval(off))` (R172). -/
def effectiveAddress (s : Arch p) (off : Int) (b : RegIdx) : Word p.xlen :=
  wrap (sval (s.readReg b) + sval (wrap off : Word p.xlen))

/-- `wrap(uval(pc) + sval(off))` (R181). -/
def relativeTarget (pc : Word n) (off : Int) : Word n := wrap ((uval pc : Int) + sval (wrap off : Word n))

/-- The shift amount a register holds, read as signed; `none` where it is negative (R140, R141). -/
def shiftAmount (v : Word n) : Option Nat := if sval v < 0 then none else some (sval v).toNat

end Sys2Proof.Machine
end

