-- ==== Sys2Proof/Machine/Arith.lean ====
section
/-! DEFINITION. Register-to-register arithmetic and logic (spec/41_arith_logic.md, R130 to R143). Results are exact
integers, wrapped (R131). -/

namespace Sys2Proof.Machine

variable {p : Config.Params} {n : Nat}

/-- `wrap(sval(a) + sval(b))` (R133). -/
def addResult (a b : Word n) : Word n := wrap (sval a + sval b)

/-- `wrap(sval(a) - sval(b))` (R134). -/
def subResult (a b : Word n) : Word n := wrap (sval a - sval b)

/-- `wrap(sval(a) * sval(b))` (R135). -/
def mulResult (a b : Word n) : Word n := wrap (sval a * sval b)

/-- `floor_div(a, b)`, rounding toward negative infinity (R12). -/
def floorDiv (a b : Int) : Int := a.fdiv b

/-- `wrap(floor_div(sval(a), sval(b)))`; `none` where the divisor is 0 (R136). -/
def divResult (a b : Word n) : Option (Word n) :=
  if sval b = 0 then none else some (wrap (floorDiv (sval a) (sval b)))

/-- `a` shifted left by `k`, the low `XLEN` bits. An amount of `XLEN` or more leaves none of the value's bits (R140):
it is the same as `XLEN`, which keeps the numbers small. -/
def shlResult (a : Word n) (k : Nat) : Word n := a <<< min k n

/-- `a` shifted right by `k`, the sign replicated. An amount of `XLEN` or more leaves the sign alone (R141): it is the
same as `XLEN`. -/
def shrResult (a : Word n) (k : Nat) : Word n := a.sshiftRight (min k n)

/-- `MOV Rd Rs` (R132). -/
def execMov (d r : RegIdx) (s : State) : Result := writeBack d (s.arch.readReg r) s.arch

/-- `ADD Rd Rs` (R133). -/
def execAdd (d r : RegIdx) (s : State) : Result := writeBack d (addResult (s.arch.readReg d) (s.arch.readReg r)) s.arch

/-- `SUB Rd Rs` (R134). -/
def execSub (d r : RegIdx) (s : State) : Result := writeBack d (subResult (s.arch.readReg d) (s.arch.readReg r)) s.arch

/-- `MUL Rd Rs` (R135). -/
def execMul (d r : RegIdx) (s : State) : Result := writeBack d (mulResult (s.arch.readReg d) (s.arch.readReg r)) s.arch

/-- `DIV Rd Rs` (R136). -/
def execDiv (d r : RegIdx) (s : State) : Result :=
  match divResult (s.arch.readReg d) (s.arch.readReg r) with
  | none => raise (.arithmeticFault .divZero) s.arch
  | some q => writeBack d q s.arch

/-- `AND Rd Rs` (R137). -/
def execAnd (d r : RegIdx) (s : State) : Result := writeBack d (s.arch.readReg d &&& s.arch.readReg r) s.arch

/-- `OR Rd Rs` (R138). -/
def execOr (d r : RegIdx) (s : State) : Result := writeBack d (s.arch.readReg d ||| s.arch.readReg r) s.arch

/-- `NOT Rd Rs` (R139). -/
def execNot (d r : RegIdx) (s : State) : Result := writeBack d (~~~ s.arch.readReg r) s.arch

/-- A shift by the amount in `Rs`, which raises where that is negative (R140, R141). -/
def execShift (f : Word p.xlen → Nat → Word p.xlen) (d r : RegIdx) (s : Arch p) : Result :=
  match shiftAmount (s.readReg r) with
  | none => raise (.arithmeticFault .negShift) s
  | some k => writeBack d (f (s.readReg d) k) s

/-- `SHL Rd Rs` (R140). -/
def execShl (d r : RegIdx) (s : State) : Result := execShift shlResult d r s.arch

/-- `SHR Rd Rs` (R141). -/
def execShr (d r : RegIdx) (s : State) : Result := execShift shrResult d r s.arch

end Sys2Proof.Machine
end

