-- ==== Sys2Proof/Machine/Flags.lean ====
section
/-! DEFINITION. The flags: packing (spec/10_state.md, R26), what CMP sets (spec/42_compare.md, R160), the masked test
of BRFL (spec/44_control_flow.md, R190), and the host's STATUS view (R43). -/

namespace Sys2Proof.Machine

/-- `FLAGS = {F.OV, F.AB, F.EQ, F.BE, F.BT, F.CO, F.ER}`, F.OV most significant (R26). -/
def Flags.pack (f : Flags) : BitVec 7 :=
  BitVec.ofBool f.ov ++ BitVec.ofBool f.ab ++ BitVec.ofBool f.eq ++ BitVec.ofBool f.be ++ BitVec.ofBool f.bt ++
    BitVec.ofBool f.co ++ BitVec.ofBool f.er

/-- What `CMP` of `A` and `B` sets: one flag, and it clears none (R160). -/
def Flags.setCompare (f : Flags) (A B : Int) : Flags :=
  if A = B then { f with eq := true }
  else if A > B then { f with ab := true }
  else { f with be := true }

/-- A seven-bit pattern as one of the width of `FLAGS`, `NFLAG` bits (R25). -/
def flagWidth (p : Config.Params) (l : BitVec 7) : BitVec p.nflag := l.cast p.nflag_eq.symm

/-- `FLAGS`, which the host reads and `BRFL` tests (R26, R29). -/
def Arch.packedFlags {p : Config.Params} (s : Arch p) : BitVec p.nflag := flagWidth p s.flags.pack

/-- `(FLAGS AND m) = (e AND m)` (R190). -/
def Arch.flagsMatch {p : Config.Params} (s : Arch p) (e m : FlagLiteral) : Bool :=
  decide (s.packedFlags &&& flagWidth p m = flagWidth p e &&& flagWidth p m)

/-- `STATUS[1:0]` (R43). -/
def RunStatus.code : RunStatus → BitVec 2
  | .running => 0
  | .haltedNormal => 1
  | .haltedError => 2

/-- The cause code (R201). -/
def Cause.code : Cause → BitVec 4
  | .none => 0
  | .retEmptyStack => 1
  | .unknownOpcode => 2
  | .malformedInstruction => 3
  | .outOfRangeRegister => 4
  | .arithmeticFault _ => 5
  | .fetchFault => 6
  | .memoryFault => 7
  | .callStackOverflow => 8

/-- `STATUS[6]` (R43). -/
def Cause.infoBit : Cause → BitVec 1
  | .arithmeticFault .negShift => 1
  | _ => 0

/-- The 7-bit `STATUS` view the host reads (R43). -/
def Arch.statusView {p : Config.Params} (s : Arch p) : BitVec 7 := s.cause.infoBit ++ s.cause.code ++ s.status.code

end Sys2Proof.Machine
end

