-- ==== Sys2Proof/Machine/Compare.lean ====
section
/-! DEFINITION. Comparison (spec/42_compare.md, R160 to R162). -/

namespace Sys2Proof.Machine

/-- `CMP Ra Rb` (R160). -/
def execCmp (a b : RegIdx) (s : State) : Result :=
  .next ⟨s.params, (s.arch.setFlags
    (s.arch.flags.setCompare (sval (s.arch.readReg a)) (sval (s.arch.readReg b)))).advance⟩

end Sys2Proof.Machine
end

