-- ==== Sys2Proof/Machine/Control.lean ====
section
/-! DEFINITION. Control transfer (spec/44_control_flow.md, R180 to R192). -/

namespace Sys2Proof.Machine

/-- `JPC off` (R181). -/
def execJpc (off : Int) (s : State) : Result := .next ⟨s.params, s.arch.jump (relativeTarget s.arch.pc off)⟩

/-- `JR Rb` (R182). -/
def execJr (b : RegIdx) (s : State) : Result := .next ⟨s.params, s.arch.jump (s.arch.readReg b)⟩

/-- `CALL Rb` (R185, R186). -/
def execCall (b : RegIdx) (s : State) : Result :=
  if s.arch.callStackFull then raise .callStackOverflow s.arch
  else .next ⟨s.params, (s.arch.pushCall s.arch.pc).jump (s.arch.readReg b)⟩

/-- `RET` (R187, R188). -/
def execRet (s : State) : Result :=
  match s.arch.popCall with
  | some (v, s') => .next ⟨s.params, s'.jump (nextPc v)⟩
  | none => if s.params.retEmptyIsError then raise .retEmptyStack s.arch else haltNormal .retEmptyStack s.arch

/-- `BRFL Rb e m` (R190, R191). -/
def execBrfl (b : RegIdx) (e m : FlagLiteral) (s : State) : Result :=
  if s.arch.flagsMatch e m then .next ⟨s.params, s.arch.jump (s.arch.readReg b)⟩
  else .next ⟨s.params, s.arch.advance⟩

/-- `NOP` (R192). -/
def execNop (s : State) : Result := .next ⟨s.params, s.arch.advance⟩

end Sys2Proof.Machine
end

