-- ==== Sys2Proof/Machine/LoadStore.lean ====
section
/-! DEFINITION. Loads and stores (spec/43_load_store.md, R170 to R172). -/

namespace Sys2Proof.Machine

/-- `LW Rt off(Rb)` (R170). -/
def execLw (t : RegIdx) (off : Int) (b : RegIdx) (s : State) : Result :=
  match memRead s.arch (effectiveAddress s.arch off b) with
  | none => raise .memoryFault s.arch
  | some (v, s') => writeBack t v s'

/-- `SW Rt off(Rb)` (R171). -/
def execSw (t : RegIdx) (off : Int) (b : RegIdx) (s : State) : Result :=
  .next ⟨s.params, (memWrite s.arch (effectiveAddress s.arch off b) (s.arch.readReg t)).advance⟩

end Sys2Proof.Machine
end

