-- ==== Sys2Proof/Machine/Dispatch.lean ====
section
/-! DEFINITION. Execute: dispatch on the decoded opcode to exactly one instruction rule
(spec/40_sequencer.md, R112). -/

namespace Sys2Proof.Machine

def exec (i : Instr) (s : State) : Host.Outcome State Fault Refusal :=
  match i with
  | .mov d r => Sys2Proof.Machine.execMov d r s
  | .add d r => Sys2Proof.Machine.execAdd d r s
  | .sub d r => Sys2Proof.Machine.execSub d r s
  | .mul d r => Sys2Proof.Machine.execMul d r s
  | .div d r => Sys2Proof.Machine.execDiv d r s
  | .and d r => Sys2Proof.Machine.execAnd d r s
  | .or d r => Sys2Proof.Machine.execOr d r s
  | .not d r => Sys2Proof.Machine.execNot d r s
  | .shl d r => Sys2Proof.Machine.execShl d r s
  | .shr d r => Sys2Proof.Machine.execShr d r s
  | .cmp a b => Sys2Proof.Machine.execCmp a b s
  | .lw t off b => Sys2Proof.Machine.execLw t off b s
  | .sw t off b => Sys2Proof.Machine.execSw t off b s
  | .jpc off => Sys2Proof.Machine.execJpc off s
  | .jr b => Sys2Proof.Machine.execJr b s
  | .call b => Sys2Proof.Machine.execCall b s
  | .ret => Sys2Proof.Machine.execRet s
  | .brfl b e m => Sys2Proof.Machine.execBrfl b e m s
  | .nop => Sys2Proof.Machine.execNop s

end Sys2Proof.Machine
end

