-- ==== Sys2Proof/Machine/Step.lean ====
section
/-! DEFINITION. One step of the sequencer (spec/40_sequencer.md, R110 to R116): fetch, decode, execute. -/

namespace Sys2Proof.Machine

/-- One step (R110). When the CORE is not RUNNING there is no transition (R111). The stages are checked in the order
of R208: fetch, decode, execute. -/
def step (s : State) : Host.Outcome State Fault Refusal :=
  match s.arch.status with
  | .running =>
    match fetch s.arch with
    | none => raise .fetchFault s.arch
    | some str =>
      match decode s.params.xlen str with
      | .error c => raise (decodeCauseToCause c) s.arch
      | .ok i => exec i s
  | .haltedNormal => .fault .noStep
  | .haltedError => .fault .noStep

/-- `prog` with the string `str` at address `n`, empty strings filling any gap below it (log entry 11). -/
def placeAt : (n : Nat) → (str : Text) → (prog : List Text) → List Text
  | 0, str, [] => [str]
  | 0, str, _ :: rest => str :: rest
  | n + 1, str, [] => [] :: placeAt n str []
  | n + 1, str, t :: rest => t :: placeAt n str rest

/-- `s` with the text packed in `nbits` bits of `w` stored where the next step fetches: at `pc` in the instruction
store, and the CORE running (log entry 11). -/
def State.withFetchWord (s : State) (nbits w : Nat) : State :=
  { s with arch := { s.arch with
      prog := placeAt (uval s.arch.pc) (textOfBits nbits w) s.arch.prog, status := .running, cause := .none } }

end Sys2Proof.Machine
end

