-- ==== Sys2Proof/Machine/Commands.lean ====
section
/-! DEFINITION. The host's commands (spec/60_exceptions.md, R218; spec/40_sequencer.md, R117 to R119;
spec/70_reset_and_hazards.md, R230). Inspection is reading the state's fields,
`Arch.packedFlags` and `Arch.statusView`. -/

namespace Sys2Proof.Machine

variable {p : Config.Params}

/-- The `construct` command, for the parameters `p` (R6, R231): `State.reset` is the construction for the spec's own. -/
def construct (p : Config.Params) : State := ⟨p, Arch.powerOn p⟩

/-- The `reset` command: the call stack, the instruction store and the data memory are not changed (R230). -/
def resetCommand (s : Arch p) : Arch p :=
  { s with
    regs := Vector.replicate p.nreg 0
    flags := ⟨false, false, false, false, false, false, false⟩
    pc := 0
    status := .running
    cause := .none }

/-- The `step` command: one step, and no transition where the step has none (R111, R218). -/
def stepCommand (s : State) : State :=
  match step s with
  | .next t => t
  | .fault _ => s
  | .refused _ => s

/-- What `run` returns (R117). -/
inductive RunResult where
  | halted | budgetExhausted
  deriving DecidableEq, Repr

/-- Steps while RUNNING, at most `n` of them (R117). -/
def runSteps : (n : Nat) → State → State
  | 0, s => s
  | n + 1, s => if s.arch.status = .running then runSteps n (stepCommand s) else s

/-- `run(max_steps)`: the state it leaves and its result (R117, R119). -/
def run (maxSteps : Int) (s : State) : State × RunResult :=
  let t := runSteps maxSteps.toNat s
  (t, if t.arch.status = .running then .budgetExhausted else .halted)

/-- The `write register` command. -/
def writeRegisterCommand (i : RegIdx) (v : Word p.xlen) (s : Arch p) : Arch p := s.writeReg i v

/-- The `load program` command; `none` for a program of more than `2^(XLEN-1)` instructions, which R51 does not
allow (log entry 15). -/
def loadProgramCommand (strs : List Text) (s : Arch p) : Option (Arch p) :=
  if strs.length ≤ 2 ^ (p.xlen - 1) then some { s with prog := strs } else none

/-- The `preload` command: `M[a]` holds `v` and is written. -/
def preloadCommand (a v : Word p.xlen) (s : Arch p) : Arch p := memWrite s a v

/-- The `clear` command on one cell: it is unwritten. -/
def clearCellCommand (a : Word p.xlen) (s : Arch p) : Arch p := { s with mem := Memory.clear s.mem a }

/-- The `clear` command on all of the data memory. -/
def clearMemoryCommand (s : Arch p) : Arch p := { s with mem := [] }

/-- The host's commands after construction that change the state, on a machine with words of `n` bits (R218). -/
inductive HostCommand (n : Nat) where
  | reset
  | step
  | run (maxSteps : Int)
  | writeRegister (i : RegIdx) (v : Word n)
  | loadProgram (strs : List Text)
  | preload (a v : Word n)
  | clearCell (a : Word n)
  | clearMemory
  deriving DecidableEq, Repr

/-- The state a command leaves; `none` for a command the host may not give. -/
def hostCommand (s : State) : HostCommand s.params.xlen → Option State
  | .reset => some ⟨s.params, resetCommand s.arch⟩
  | .step => some (stepCommand s)
  | .run n => some (run n s).1
  | .writeRegister i v => some ⟨s.params, writeRegisterCommand i v s.arch⟩
  | .loadProgram strs => (loadProgramCommand strs s.arch).map fun t => ⟨s.params, t⟩
  | .preload a v => some ⟨s.params, preloadCommand a v s.arch⟩
  | .clearCell a => some ⟨s.params, clearCellCommand a s.arch⟩
  | .clearMemory => some ⟨s.params, clearMemoryCommand s.arch⟩

end Sys2Proof.Machine
end

