-- ==== Sys2Proof/WellFormed.lean ====
section
/-! DEFINITION. Which token lists are instructions: the token grammars of spec/30_encoding.md, rules R75 to R82, as
checks of their own (they scan a token from the left, where the decoder cuts it into parts), and which instructions are
well-formed at a width: an offset is in the signed range, all else the types of `Instr` say (R86). -/

namespace Sys2Proof

/-- `[0-9]+`. -/
def isDigits (t : Text) : Bool := decide (t ≠ []) && t.all isDigit

/-- A token without its sign. -/
def dropSign : Text → Text
  | [] => []
  | c :: cs => if c = '+' ∨ c = '-' then cs else c :: cs

/-- An instruction of the machine with words of `xlen` bits: its offset is in range (R80, R86). -/
def Instr.wf (xlen : Nat) : Instr → Bool
  | .lw _ off _ | .sw _ off _ | .jpc off => decide (inSignedRange xlen off)
  | .mov _ _ | .add _ _ | .sub _ _ | .mul _ _ | .div _ _ | .and _ _ | .or _ _ | .not _ _ | .shl _ _ | .shr _ _
  | .cmp _ _ | .jr _ | .call _ | .ret | .brfl _ _ _ | .nop => true

/-- The operand kinds of a format, in order (R81). -/
def Format.kinds : Format → List OperandKind
  | .RR => [.register, .register]
  | .RM => [.register, .memory]
  | .I => [.immediate]
  | .R => [.register]
  | .RLL => [.register, .flagLiteral, .flagLiteral]
  | .N => []

/-- A decimal numeral `[+-]?[0-9]+` (R75). -/
def isNumeral (t : Text) : Bool := isDigits (dropSign t)

/-- The signed value of a numeral (R75). -/
def numeralValue (t : Text) : Int :=
  if t.head? = some '-' then -(digitsValue (dropSign t) : Int) else (digitsValue (dropSign t) : Int)

/-- A register operand `R[0-9]+` (R76). -/
def isRegisterShape : Text → Bool
  | [] => false
  | c :: cs => decide (c = 'R') && isDigits cs

/-- The register operand's index is at most 31 (R76). -/
def isRegisterInRange (t : Text) : Bool := decide (digitsValue t.tail ≤ 31)

/-- A numeral of an immediate or an offset is in the signed range of `xlen` bits (R80). -/
def isNumeralInRange (xlen : Nat) (t : Text) : Bool := decide (inSignedRange xlen (numeralValue t))

/-- The numeral a memory operand starts with: its sign and its digits. -/
def offsetPart (t : Text) : Text := t.take (t.length - (dropSign t).length) ++ (dropSign t).takeWhile isDigit

/-- What follows the offset of a memory operand. -/
def afterOffset (t : Text) : Text := (dropSign t).dropWhile isDigit

/-- The base register of a memory operand, without the parentheses. -/
def basePart (t : Text) : Text := (afterOffset t).tail.dropLast

/-- A memory operand `[+-]?[0-9]+\(R[0-9]+\)` (R77). -/
def isMemoryShape (t : Text) : Bool :=
  isNumeral (offsetPart t) && decide ((afterOffset t).head? = some '(') &&
    decide ((afterOffset t).tail.getLast? = some ')') && isRegisterShape (basePart t)

/-- A flag literal `[01]{7}` (R78). -/
def isFlagLiteral (t : Text) : Bool := decide (t.length = 7) && t.all fun c => decide (c = '0' ∨ c = '1')

/-- The cause that the check of one operand token against its kind raises; `none` where it passes (R76 to R80). -/
def OperandKind.failure (xlen : Nat) : OperandKind → Text → Option DecodeCause
  | .register, t =>
    if !isRegisterShape t then some .malformedInstruction
    else if !isRegisterInRange t then some .outOfRangeRegister
    else none
  | .memory, t =>
    if !isMemoryShape t then some .malformedInstruction
    else if !isNumeralInRange xlen (offsetPart t) then some .malformedInstruction
    else if !isRegisterInRange (basePart t) then some .outOfRangeRegister
    else none
  | .immediate, t =>
    if !isNumeral t then some .malformedInstruction
    else if !isNumeralInRange xlen t then some .malformedInstruction
    else none
  | .flagLiteral, t => if !isFlagLiteral t then some .malformedInstruction else none

/-- Operand tokens against operand kinds: as many, and each passes its check (R82, R83). -/
def operandsWf (xlen : Nat) : List OperandKind → List Text → Bool
  | [], [] => true
  | k :: ks, t :: ts => decide (k.failure xlen t = none) && operandsWf xlen ks ts
  | _, _ => false

/-- A token list that is an instruction: a mnemonic and its operands (R74, R82, R83). -/
def tokensWf (xlen : Nat) : List Text → Bool
  | [] => false
  | op :: ops =>
    match Opcode.ofToken? op with
    | none => false
    | some o => operandsWf xlen o.format.kinds ops

end Sys2Proof
end

