-- ==== Sys2Proof/Safety.lean ====
section
/-! DEFINITION. The terms claims are made in: what a step fetches, what an instruction leaves unchanged, the halted
states, the invariant of rule R47, the reachable states and the end of a run (R121). -/

namespace Sys2Proof.Machine

variable {p : Config.Params}

/-! ## What a text is (R83, R86) -/

/-- The token is a register operand whose digits' value is `r` (R76). -/
def NamesRegister (t : Text) (r : RegIdx) : Prop := isRegisterShape t = true ∧ digitsValue t.tail = r.val

/-- The token is a numeral of the value `v`, in the signed range of `xlen` bits (R75, R80). -/
def SpellsNumeral (xlen : Nat) (t : Text) (v : Int) : Prop :=
  isNumeral t = true ∧ numeralValue t = v ∧ inSignedRange xlen v

/-- The token is seven characters `0` or `1`, character `k` from the left being bit `6-k` of `l` (R78). -/
def SpellsLiteral (t : Text) (l : FlagLiteral) : Prop :=
  t.length = 7 ∧ (∀ c ∈ t, c = '0' ∨ c = '1') ∧ ∀ k < 7, l.getLsbD (6 - k) = true ↔ t[k]? = some '1'

/-- The operand tokens spell the operands of the instruction, each in its place (R81, R86). -/
def SpellsOperands (xlen : Nat) (ops : List Text) : Instr → Prop
  | .mov d r | .add d r | .sub d r | .mul d r | .div d r | .and d r | .or d r | .not d r | .shl d r | .shr d r
  | .cmp d r => ∃ t₁ t₂, ops = [t₁, t₂] ∧ NamesRegister t₁ d ∧ NamesRegister t₂ r
  | .lw t off b | .sw t off b =>
    ∃ t₁ n r, ops = [t₁, n ++ '(' :: (r ++ [')'])] ∧ NamesRegister t₁ t ∧ SpellsNumeral xlen n off ∧ NamesRegister r b
  | .jpc off => ∃ t₁, ops = [t₁] ∧ SpellsNumeral xlen t₁ off
  | .jr b | .call b => ∃ t₁, ops = [t₁] ∧ NamesRegister t₁ b
  | .brfl b e m => ∃ t₁ t₂ t₃, ops = [t₁, t₂, t₃] ∧ NamesRegister t₁ b ∧ SpellsLiteral t₂ e ∧ SpellsLiteral t₃ m
  | .ret | .nop => ops = []

/-- The string fails a check of R83 with the cause, the checks being made in the order of that rule: a token at all, a
mnemonic, the number of operand tokens, and the operand tokens from left to right, the first that fails giving the
cause. -/
inductive TextFails (xlen : Nat) (str : Text) : DecodeCause → Prop where
  | noToken (h : split str = []) : TextFails xlen str .malformedInstruction
  | notMnemonic {op : Text} {ops : List Text} (h : split str = op :: ops) (ho : ∀ o : Opcode, op ≠ o.token) :
      TextFails xlen str .unknownOpcode
  | wrongCount {o : Opcode} {ops : List Text} (h : split str = o.token :: ops)
      (hc : ops.length ≠ o.format.kinds.length) : TextFails xlen str .malformedInstruction
  | operand {o : Opcode} {ops : List Text} (h : split str = o.token :: ops)
      (hc : ops.length = o.format.kinds.length) {j : Nat} {k : OperandKind} {t : Text} {c : DecodeCause}
      (hk : o.format.kinds[j]? = some k) (ht : ops[j]? = some t) (hf : k.failure xlen t = some c)
      (hb : ∀ i < j, ∀ k' t', o.format.kinds[i]? = some k' → ops[i]? = some t' → k'.failure xlen t' = none) :
      TextFails xlen str c

/-! ## What a step runs -/

/-- The CORE is RUNNING and the string at `pc` decodes to `i`. -/
def Fetches (s : Arch p) (i : Instr) : Prop :=
  s.status = .running ∧ ∃ str, fetch s = some str ∧ decode p.xlen str = .ok i

/-- `i`'s opcode token is `token`, character for character, and its format is `f` (R81, R85). -/
def HasEncoding (i : Instr) (token : Text) (f : Format) : Prop :=
  Opcode.ofToken? token = some i.opcode ∧ i.opcode.format = f

/-- The register an instruction writes: its first operand, for the eleven instructions of R21. -/
def destination : Instr → Option RegIdx
  | .mov d _ | .add d _ | .sub d _ | .mul d _ | .div d _ | .and d _ | .or d _ | .not d _ | .shl d _ | .shr d _
  | .lw d _ _ => some d
  | .cmp _ _ | .sw _ _ _ | .jpc _ | .jr _ | .call _ | .ret | .brfl _ _ _ | .nop => none

/-- The registers an instruction reads (R21). -/
def sources : Instr → List RegIdx
  | .add d r | .sub d r | .mul d r | .div d r | .and d r | .or d r | .shl d r | .shr d r => [d, r]
  | .mov _ r | .not _ r => [r]
  | .cmp a b => [a, b]
  | .lw _ _ b => [b]
  | .sw t _ b => [t, b]
  | .jr b | .call b | .brfl b _ _ => [b]
  | .jpc _ | .ret | .nop => []

/-- The instructions that are no control transfer (R113). -/
def IsStraightLine (i : Instr) : Prop :=
  i.opcode ∈ [Opcode.mov, .add, .sub, .mul, .div, .and, .or, .not, .shl, .shr, .cmp, .lw, .sw, .nop]

/-- `k` steps lead from `s` to `t`, each of them of an instruction that is no control transfer, and none of them
halts. -/
def StraightSteps : (k : Nat) → Arch p → Arch p → Prop
  | 0, s, t => t = s
  | k + 1, s, t =>
    ∃ i u, Fetches s i ∧ IsStraightLine i ∧ step ⟨p, s⟩ = .next ⟨p, u⟩ ∧ u.status = .running ∧ StraightSteps k u t

/-- An instruction that takes the flags `s` to `t` and the flags `f` to `g` does the same to every flag in both: it
leaves the same value, or it leaves the flag as it was. -/
def SameFlagEffect (s t f g : Flags) : Prop :=
  (g.ov = t.ov ∨ t.ov = s.ov ∧ g.ov = f.ov) ∧ (g.ab = t.ab ∨ t.ab = s.ab ∧ g.ab = f.ab) ∧
  (g.eq = t.eq ∨ t.eq = s.eq ∧ g.eq = f.eq) ∧ (g.be = t.be ∨ t.be = s.be ∧ g.be = f.be) ∧
  (g.bt = t.bt ∨ t.bt = s.bt ∧ g.bt = f.bt) ∧ (g.co = t.co ∨ t.co = s.co ∧ g.co = f.co) ∧
  (g.er = t.er ∨ t.er = s.er ∧ g.er = f.er)

/-! ## What is left unchanged -/

/-- Every register is unchanged. -/
def SameRegisters (s t : Arch p) : Prop := ∀ k, t.readReg k = s.readReg k

/-- Every register but `d` is unchanged. -/
def SameRegistersBut (d : RegIdx) (s t : Arch p) : Prop := ∀ k, k ≠ d → t.readReg k = s.readReg k

/-- Every data cell reads as before, and is written or unwritten as before. -/
def SameMemory (s t : Arch p) : Prop := ∀ a, Memory.read t.mem a = Memory.read s.mem a

/-- Every data cell but the one at `e` reads as before. -/
def SameMemoryBut (e : Word p.xlen) (s t : Arch p) : Prop := ∀ a, a ≠ e → Memory.read t.mem a = Memory.read s.mem a

/-- The run state is unchanged. -/
def SameRunState (s t : Arch p) : Prop := t.status = s.status ∧ t.cause = s.cause

/-- The instruction store is unchanged. (The parameters are the same by the states' type.) -/
def SameProgram (s t : Arch p) : Prop := t.prog = s.prog

/-- Everything but register `d`, `pc` and the draw counter is unchanged. -/
def OnlyRegisterWritten (d : RegIdx) (s t : Arch p) : Prop :=
  SameRegistersBut d s t ∧ t.flags = s.flags ∧ t.cs = s.cs ∧ SameMemory s t ∧ SameRunState s t ∧ SameProgram s t

/-- Everything but `pc` and the call stack is unchanged. -/
def OnlyControlChanged (s t : Arch p) : Prop :=
  SameRegisters s t ∧ t.flags = s.flags ∧ SameMemory s t ∧ SameRunState s t ∧ SameProgram s t ∧ t.draws = s.draws

/-- Everything but the flags and the run state is unchanged, `pc` among it. -/
def SameButHalt (s t : Arch p) : Prop :=
  SameRegisters s t ∧ t.pc = s.pc ∧ t.cs = s.cs ∧ SameMemory s t ∧ SameProgram s t ∧ t.draws = s.draws

/-- `t` is `s` after the error halt with cause `c` (R204). -/
def ErrorHalted (c : Cause) (s t : Arch p) : Prop :=
  t.status = .haltedError ∧ t.cause = c ∧ t.flags = { s.flags with er := true } ∧ SameButHalt s t

/-- `t` is `s` after the normal halt with cause `c` (R205). -/
def NormalHalted (c : Cause) (s t : Arch p) : Prop :=
  t.status = .haltedNormal ∧ t.cause = c ∧ t.flags = s.flags ∧ SameButHalt s t

/-! ## The invariant and the reachable states -/

/-- What holds in every reachable state. -/
structure Inv (s : Arch p) : Prop where
  /-- `cause = NONE` if and only if `status = RUNNING` (R41, R47). -/
  cause_none : s.cause = .none ↔ s.status = .running
  /-- `F.ER = 1` whenever `status = HALTED_ERROR` (R47). -/
  error_flag : s.status = .haltedError → s.flags.er = true
  /-- `F.ER` is 1 only in a state halted by an error (R191). -/
  error_flag_only : s.flags.er = true → s.status = .haltedError
  /-- A normal halt is a `RET` on an empty stack, with `RET_EMPTY_IS_ERROR = false` (R202). -/
  normal_halt : s.status = .haltedNormal → s.cause = .retEmptyStack ∧ p.retEmptyIsError = false
  /-- `F.OV`, `F.BT` and `F.CO` stay 0 (R28). -/
  unwritten_flags : s.flags.ov = false ∧ s.flags.bt = false ∧ s.flags.co = false
  /-- The data memory keeps its canonical form. -/
  memory : Memory.wf s.mem
  /-- `N <= 2^(XLEN-1)` (R51). -/
  program : s.prog.length ≤ 2 ^ (p.xlen - 1)
  /-- The call stack is never deeper than a finite `CS_DEPTH` (R37). -/
  depth : ∀ n, p.csDepth = some n → s.cs.length ≤ n

/-- Every call-stack entry is the address of a loaded `CALL` (R36, R47). -/
def StackEntriesAreCalls (s : Arch p) : Prop :=
  ∀ v ∈ s.cs, ∃ str b, s.prog[uval v]? = some str ∧ decode p.xlen str = .ok (.call b)

/-- The states the host can bring the CORE to (R218). -/
inductive Reachable : State → Prop where
  | construct (p : Config.Params) : Reachable (construct p)
  | command {s t : State} (c : HostCommand s.params.xlen) (hs : Reachable s) (h : hostCommand s c = some t) :
      Reachable t

/-- The run from `s` ends in `t`: `t` is the first state whose status is not RUNNING (R121). -/
def EndsIn (s t : State) : Prop := ∃ n, runSteps n s = t ∧ t.arch.status ≠ .running

/-- No step of the run from `s` is an error halt. -/
def SafeRun (s : State) : Prop := ∀ n, (runSteps n s).arch.status ≠ .haltedError

end Sys2Proof.Machine
end

