-- ==== Sys2Proof/Certificates/Slice0/Obligations.lean ====
section
/-! DEFINITION. The statements, from the numbered rules of spec/. In every one, a state `⟨p, s⟩` is any state at all of
the machine with any parameters `p` of R6, its width `XLEN` among them; `wrap off` is the pattern R86 holds for an
offset of the value `off` (R80; log entry 18). -/

open Sys2Proof Sys2Proof.Machine

/-! ## Text, decoding and encoding (spec/30_encoding.md) -/

/-- The decoder reads back every instruction from its canonical text, at every value of every operand that the width
admits (R80, R86), for every width. -/
def Obligations.DecodeOfEncodeIsTheInstruction : Prop :=
  ∀ (xlen : Nat) (i : Instr), i.wf xlen = true → decode xlen (encode i) = .ok i

/-- The decoder accepts a string exactly when its tokens pass the checks of Sys2Proof/WellFormed.lean: R74's
mnemonics, R81's and R82's counts and kinds, R75 to R80's grammars and ranges. -/
def Obligations.DecodeAcceptsExactlyWellFormedText : Prop :=
  ∀ (xlen : Nat) (str : Text), (∃ i, decode xlen str = .ok i) ↔ tokensWf xlen (split str) = true

/-- R83: a string raises a cause exactly when its first check that fails raises that cause, the checks being made in
the order of R83 (`TextFails`: a token, a mnemonic, the operand count, the operand tokens from left to right); a
string decodes to the instruction whose mnemonic its first token is and whose operands its operand tokens spell, each
in its place (R86), and it does so exactly when no check fails; and the four examples of R83. -/
def Obligations.DecodeChecksInOrder : Prop :=
  ∀ xlen : Nat,
    (∀ (str : Text) (c : DecodeCause), decode xlen str = .error c ↔ TextFails xlen str c) ∧
    (∀ (str : Text) (i : Instr), decode xlen str = .ok i ↔
      ∃ ops, split str = i.opcode.token :: ops ∧ SpellsOperands xlen ops i) ∧
    (∀ str : Text, (∃ i, decode xlen str = .ok i) ↔ ∀ c, ¬ TextFails xlen str c) ∧
    decode xlen "FOO R99".toList = .error .unknownOpcode ∧
    decode xlen "ADD R99".toList = .error .malformedInstruction ∧
    decode xlen "ADD R99 X".toList = .error .outOfRangeRegister ∧
    decode xlen "ADD X R99".toList = .error .malformedInstruction

/-- Texts of spec/95_test_vectors.md, section 2.1, and one more of each family, decode to their instructions
at the width 32 that those vectors take. -/
def Obligations.WrittenTextsDecode : Prop :=
  decode 32 "  ADD   R07\tR1  ".toList = .ok (.add 7 1) ∧
  decode 32 "SHL R1 R2".toList = .ok (.shl 1 2) ∧
  decode 32 "CMP R0 R31".toList = .ok (.cmp 0 31) ∧
  decode 32 "LW R1 -4(R10)".toList = .ok (.lw 1 (-4) 10) ∧
  decode 32 "SW R1 +4(R10)".toList = .ok (.sw 1 4 10) ∧
  decode 32 "JPC -2147483648".toList = .ok (.jpc (-2147483648)) ∧
  decode 32 "CALL R7".toList = .ok (.call 7) ∧
  decode 32 "BRFL R5 0010000 1000001".toList = .ok (.brfl 5 0b0010000#7 0b1000001#7) ∧
  decode 32 "RET".toList = .ok .ret ∧
  decode 32 "NOP".toList = .ok .nop

/-- R71: the tokens of a string hold no separator and are not empty; a string of no characters has no token; a string
without separators is one token; and a separator ends a token, wherever it stands. The four clauses fix `split`. -/
def Obligations.TokensAreMaximalSeparatorFreeRuns : Prop :=
  (∀ str : Text, ∀ t ∈ split str, t ≠ [] ∧ ∀ c ∈ t,
    c.toNat ≠ 0x20 ∧ c.toNat ≠ 0x09 ∧ c.toNat ≠ 0x0A ∧ c.toNat ≠ 0x0B ∧ c.toNat ≠ 0x0C ∧ c.toNat ≠ 0x0D) ∧
  split [] = [] ∧
  (∀ t : Text, t ≠ [] → (∀ c ∈ t, c.toNat ∉ [0x20, 0x09, 0x0A, 0x0B, 0x0C, 0x0D]) → split t = [t]) ∧
  (∀ (a b : Text) (c : Char), c.toNat ∈ [0x20, 0x09, 0x0A, 0x0B, 0x0C, 0x0D] →
    split (a ++ c :: b) = split a ++ split b)

/-- R74: a string raises UNKNOWN_OPCODE exactly when it has a first token and that token is none of the 19 mnemonics. -/
def Obligations.UnknownOpcodeExactlyForNonMnemonics : Prop :=
  ∀ (xlen : Nat) (str : Text), decode xlen str = .error .unknownOpcode ↔
    ∃ op ops, split str = op :: ops ∧
      op ∉ ["MOV".toList, "ADD".toList, "SUB".toList, "MUL".toList, "DIV".toList, "AND".toList, "OR".toList,
        "NOT".toList, "SHL".toList, "SHR".toList, "CMP".toList, "LW".toList, "SW".toList, "JPC".toList, "JR".toList,
        "CALL".toList, "RET".toList, "BRFL".toList, "NOP".toList]

/-- R73 and R82: a string with no token, and one whose mnemonic has another number of operand tokens than its format's,
raise MALFORMED_INSTRUCTION, whatever the operands are; so do R82's comma and comment examples. -/
def Obligations.NoTokenOrWrongCountIsMalformed : Prop :=
  ∀ xlen : Nat,
    (∀ str : Text, split str = [] → decode xlen str = .error .malformedInstruction) ∧
    (∀ (str op : Text) (ops : List Text) (o : Opcode), split str = op :: ops → op = o.token →
      ops.length ≠ (match o.format with | .RR => 2 | .RM => 2 | .I => 1 | .R => 1 | .RLL => 3 | .N => 0) →
      decode xlen str = .error .malformedInstruction) ∧
    decode xlen "ADD R1, R2".toList = .error .malformedInstruction ∧
    decode xlen "NOP ; x".toList = .error .malformedInstruction

/-- R76: a register operand is `R` and one or more digits; its index is the digits' value if that is at most 31, and
OUT_OF_RANGE_REGISTER otherwise; any other token is MALFORMED_INSTRUCTION. -/
def Obligations.RegisterTokenIsReadByItsDigits : Prop :=
  ∀ t : Text,
    (isRegisterShape t = true → ∀ r : RegIdx, parseRegister t = .ok r ↔ digitsValue t.tail = r.val) ∧
    (isRegisterShape t = true → (parseRegister t = .error .outOfRangeRegister ↔ 31 < digitsValue t.tail)) ∧
    (isRegisterShape t = false → parseRegister t = .error .malformedInstruction)

/-- R79 and R80: an immediate is a numeral in the signed XLEN range, held as its value, which is the signed value of the
pattern that the spec holds; any other token is MALFORMED_INSTRUCTION. -/
def Obligations.ImmediateTokenIsReadInRange : Prop :=
  ∀ (p : Config.Params) (t : Text),
    (isNumeral t = true → -2 ^ (p.xlen - 1) ≤ numeralValue t → numeralValue t ≤ 2 ^ (p.xlen - 1) - 1 →
      parseImmediate p.xlen t = .ok (numeralValue t) ∧
        sval (wrap (numeralValue t) : Word p.xlen) = numeralValue t) ∧
    (isNumeral t = false ∨ numeralValue t < -2 ^ (p.xlen - 1) ∨ 2 ^ (p.xlen - 1) - 1 < numeralValue t →
      parseImmediate p.xlen t = .error .malformedInstruction)

/-- R77: a memory operand is a numeral, `(`, a register operand and `)`; the offset's range is checked before the base's;
any other token is MALFORMED_INSTRUCTION. -/
def Obligations.MemoryTokenChecksOffsetThenBase : Prop :=
  ∀ xlen : Nat,
    (∀ n r : Text, isNumeral n = true → isRegisterShape r = true →
      (¬ inSignedRange xlen (numeralValue n) →
        parseMemory xlen (n ++ '(' :: (r ++ [')'])) = .error .malformedInstruction) ∧
      (inSignedRange xlen (numeralValue n) → 31 < digitsValue r.tail →
        parseMemory xlen (n ++ '(' :: (r ++ [')'])) = .error .outOfRangeRegister) ∧
      (inSignedRange xlen (numeralValue n) → ∀ b : RegIdx, digitsValue r.tail = b.val →
        parseMemory xlen (n ++ '(' :: (r ++ [')'])) = .ok (numeralValue n, b))) ∧
    (∀ t : Text, (¬ ∃ n r : Text, t = n ++ '(' :: (r ++ [')']) ∧ isNumeral n = true ∧ isRegisterShape r = true) →
      parseMemory xlen t = .error .malformedInstruction)

/-- R78: a flag literal is exactly seven characters `0` or `1`, character `k` from the left being bit `6-k` of its
pattern; any other token is MALFORMED_INSTRUCTION. -/
def Obligations.FlagLiteralIsReadLeftToRight : Prop :=
  ∀ t : Text,
    (t.length = 7 ∧ (∀ c ∈ t, c = '0' ∨ c = '1') →
      ∃ l : FlagLiteral, parseFlagLiteral t = .ok l ∧ ∀ k < 7, l.getLsbD (6 - k) = true ↔ t[k]? = some '1') ∧
    (¬ (t.length = 7 ∧ ∀ c ∈ t, c = '0' ∨ c = '1') → parseFlagLiteral t = .error .malformedInstruction)

/-- R70: no string with a character outside ASCII decodes to an instruction. -/
def Obligations.NonAsciiTextNeverDecodes : Prop :=
  ∀ (xlen : Nat) (str : Text) (i : Instr), decode xlen str = .ok i → ∀ c ∈ str, c.toNat < 128

/-! ## The step (spec/40_sequencer.md) -/

/-- R110, R112: when the CORE is RUNNING and the string at `pc` decodes to `i`, the step is `exec i`. -/
def Obligations.StepRunsTheDecodedInstruction : Prop :=
  ∀ (p : Config.Params) (s : Arch p) (i : Instr), Fetches s i → step ⟨p, s⟩ = exec i ⟨p, s⟩

/-- A RUNNING core's step always answers a next state, and so does every instruction in every state: no instruction is
refused or stops the model. The next state is one of the machine with the same parameters. -/
def Obligations.RunningStepAnswersNext : Prop :=
  ∀ (p : Config.Params) (s : Arch p),
    (s.status = .running → ∃ t, step ⟨p, s⟩ = .next ⟨p, t⟩) ∧ (∀ i : Instr, ∃ t, exec i ⟨p, s⟩ = .next ⟨p, t⟩)

/-- R111: a halted CORE has no transition: `step` stops (that "no transition" is the fault `noStep` is the model's choice,
log entry 5), and the commands `step` and `run` leave the state as it is. -/
def Obligations.HaltedCoreHasNoTransition : Prop :=
  ∀ s : State, s.arch.status ≠ .running →
    step s = .fault .noStep ∧ stepCommand s = s ∧ (∀ n : Int, run n s = (s, .halted))

/-- R52: the fetch reads the instruction string at `pc` when `uval(pc) < N`, and raises FETCH_FAULT otherwise; a `pc`
whose signed value is negative always faults. -/
def Obligations.FetchFaultsExactlyOutsideTheProgram : Prop :=
  ∀ (p : Config.Params) (s : Arch p),
    (∀ h : uval s.pc < s.prog.length, fetch s = some (s.prog[uval s.pc])) ∧
    (s.status = .running → s.prog.length ≤ uval s.pc → ∃ t, step ⟨p, s⟩ = .next ⟨p, t⟩ ∧
      ErrorHalted .fetchFault s t) ∧
    (s.status = .running → s.prog.length ≤ 2 ^ (p.xlen - 1) → sval s.pc < 0 →
      ∃ t, step ⟨p, s⟩ = .next ⟨p, t⟩ ∧ ErrorHalted .fetchFault s t)

/-- R84: a decode failure has no effect other than the error halt with its cause. -/
def Obligations.DecodeFailureOnlyHalts : Prop :=
  ∀ (p : Config.Params) (s : Arch p) (str : Text) (c : DecodeCause),
    s.status = .running → fetch s = some str → decode p.xlen str = .error c →
    ∃ t, step ⟨p, s⟩ = .next ⟨p, t⟩ ∧
      ErrorHalted (match c with
        | .malformedInstruction => .malformedInstruction
        | .unknownOpcode => .unknownOpcode
        | .outOfRangeRegister => .outOfRangeRegister) s t

/-- `k` steps of which none executes a control transfer or halts end with `pc = wrap(uval(pc0) + k)`. (The
spec marks this, in R116, as its own inference from R110 and R113.) -/
def Obligations.StraightStepsAdvancePcByTheirNumber : Prop :=
  ∀ (p : Config.Params) (k : Nat) (s t : Arch p), StraightSteps k s t → t.pc = wrap ((uval s.pc : Int) + k)

/-- R117, R119: `run` performs a step while the CORE is RUNNING and the budget is not used up, and returns HALTED or
BUDGET_EXHAUSTED by the status it leaves. -/
def Obligations.RunStopsAtHaltOrBudget : Prop :=
  ∀ (n : Int) (s : State),
    (n ≤ 0 → run n s = (s, if s.arch.status = .running then .budgetExhausted else .halted)) ∧
    (s.arch.status ≠ .running → run n s = (s, .halted)) ∧
    (∀ t, 0 < n → step s = .next t → run n s = run (n - 1) t) ∧
    ((run n s).2 = .budgetExhausted ↔ (run n s).1.arch.status = .running)

/-- R118: a later `run` continues from the same state: two runs in a row are one run with the two budgets together. -/
def Obligations.ConsecutiveRunsAreOneRun : Prop :=
  ∀ (m n : Int) (s : State), 0 ≤ m → 0 ≤ n → run (m + n) s = run n (run m s).1

/-- R121: a run ends in at most one state, and every `run` with a large enough budget returns HALTED with that state.
(The spec marks R121 as its own inference from R110, R117 and R118.) -/
def Obligations.RunEndsInAtMostOneState : Prop :=
  ∀ s t u : State, EndsIn s t → EndsIn s u → t = u ∧ ∃ n : Int, ∀ m : Int, n ≤ m → run m s = (t, .halted)

/-! ## Halts (spec/60_exceptions.md) -/

/-- R204 and R205: `raise` sets F.ER, `status` and `cause` and nothing else; `halt_normal` sets `status` and `cause` and
nothing else. -/
def Obligations.HaltsWriteOnlyTheirOwnState : Prop :=
  ∀ (p : Config.Params) (c : Cause) (s : Arch p),
    (∃ t, raise c s = .next ⟨p, t⟩ ∧ ErrorHalted c s t) ∧ (∃ t, haltNormal c s = .next ⟨p, t⟩ ∧ NormalHalted c s t)

/-- R206: after a step that halts, `pc` is the address of the instruction that halted, and nothing of that instruction
has taken effect except the halt's own writes. -/
def Obligations.HaltsArePrecise : Prop :=
  ∀ (p : Config.Params) (s t : Arch p), step ⟨p, s⟩ = .next ⟨p, t⟩ → t.status ≠ .running →
    ErrorHalted t.cause s t ∨ NormalHalted t.cause s t

/-- R202: a step halts normally only by a `RET` on an empty stack with RET_EMPTY_IS_ERROR = false, and every other cause
halts with HALTED_ERROR. -/
def Obligations.NormalHaltOnlyByReturnOnEmptyStack : Prop :=
  ∀ (p : Config.Params) (s t : Arch p), s.cause = .none → step ⟨p, s⟩ = .next ⟨p, t⟩ →
    (t.status = .haltedNormal ↔ Fetches s .ret ∧ s.cs = [] ∧ p.retEmptyIsError = false) ∧
    (t.status = .haltedNormal → t.cause = .retEmptyStack) ∧
    (t.cause ≠ .none → t.cause ≠ .retEmptyStack → t.status = .haltedError)

/-- R201 (the columns `raised by` and `when`): which step reports which cause. For the three decode causes, `TextFails`
says of the fetched string which check of R73 to R83 fails first. -/
def Obligations.CausesAreReportedByTheirRaisers : Prop :=
  ∀ (p : Config.Params) (s t : Arch p), s.cause = .none → step ⟨p, s⟩ = .next ⟨p, t⟩ →
    (t.cause = .none ↔ t.status = .running) ∧
    (t.cause = .retEmptyStack ↔ Fetches s .ret ∧ s.cs = []) ∧
    (t.cause = .unknownOpcode ↔ ∃ str, fetch s = some str ∧ TextFails p.xlen str .unknownOpcode) ∧
    (t.cause = .malformedInstruction ↔ ∃ str, fetch s = some str ∧ TextFails p.xlen str .malformedInstruction) ∧
    (t.cause = .outOfRangeRegister ↔ ∃ str, fetch s = some str ∧ TextFails p.xlen str .outOfRangeRegister) ∧
    (t.cause = .arithmeticFault .divZero ↔ ∃ d r, Fetches s (.div d r) ∧ s.readReg r = 0) ∧
    (t.cause = .arithmeticFault .negShift ↔
      ∃ d r, (Fetches s (.shl d r) ∨ Fetches s (.shr d r)) ∧ sval (s.readReg r) < 0) ∧
    (t.cause = .fetchFault ↔ s.prog.length ≤ uval s.pc) ∧
    (t.cause = .memoryFault ↔ ∃ r off b, Fetches s (.lw r off b) ∧ p.unwrittenLoad = .fault ∧
      Memory.read s.mem (wrap (sval (s.readReg b) + sval (wrap off : Word p.xlen))) = none) ∧
    (t.cause = .callStackOverflow ↔ ∃ b, Fetches s (.call b) ∧ p.csDepth = some s.cs.length)

/-! ## Arithmetic and logic (spec/41_arith_logic.md) -/

/-- R132: `MOV` copies a register. -/
def Obligations.MovCopiesARegister : Prop :=
  ∀ (p : Config.Params) (d r : RegIdx) (s : Arch p),
    HasEncoding (.mov d r) "MOV".toList .RR ∧
    ∃ t, exec (.mov d r) ⟨p, s⟩ = .next ⟨p, t⟩ ∧ t.readReg d = s.readReg r ∧ t.pc = wrap ((uval s.pc : Int) + 1) ∧
      OnlyRegisterWritten d s t ∧ t.draws = s.draws

/-- R133, R134, R135: `ADD`, `SUB` and `MUL` write the wrapped sum, difference and product of the signed values; no
overflow sets a flag or raises. -/
def Obligations.AddSubMulWriteTheWrappedResult : Prop :=
  ∀ (p : Config.Params) (d r : RegIdx) (s : Arch p),
    (HasEncoding (.add d r) "ADD".toList .RR ∧
      ∃ t, exec (.add d r) ⟨p, s⟩ = .next ⟨p, t⟩ ∧ t.readReg d = wrap (sval (s.readReg d) + sval (s.readReg r)) ∧
        t.pc = wrap ((uval s.pc : Int) + 1) ∧ OnlyRegisterWritten d s t ∧ t.draws = s.draws) ∧
    (HasEncoding (.sub d r) "SUB".toList .RR ∧
      ∃ t, exec (.sub d r) ⟨p, s⟩ = .next ⟨p, t⟩ ∧ t.readReg d = wrap (sval (s.readReg d) - sval (s.readReg r)) ∧
        t.pc = wrap ((uval s.pc : Int) + 1) ∧ OnlyRegisterWritten d s t ∧ t.draws = s.draws) ∧
    (HasEncoding (.mul d r) "MUL".toList .RR ∧
      ∃ t, exec (.mul d r) ⟨p, s⟩ = .next ⟨p, t⟩ ∧ t.readReg d = wrap (sval (s.readReg d) * sval (s.readReg r)) ∧
        t.pc = wrap ((uval s.pc : Int) + 1) ∧ OnlyRegisterWritten d s t ∧ t.draws = s.draws)

/-- Addition, subtraction and multiplication give the same pattern whether their operands are read as signed or
unsigned. (The spec marks this, in R131, as its own inference from R8.) -/
def Obligations.AddSubMulAreTheSameUnsigned : Prop :=
  ∀ (p : Config.Params) (d r : RegIdx) (s : Arch p),
    (∃ t, exec (.add d r) ⟨p, s⟩ = .next ⟨p, t⟩ ∧
      t.readReg d = wrap ((uval (s.readReg d) : Int) + uval (s.readReg r))) ∧
    (∃ t, exec (.sub d r) ⟨p, s⟩ = .next ⟨p, t⟩ ∧
      t.readReg d = wrap ((uval (s.readReg d) : Int) - uval (s.readReg r))) ∧
    (∃ t, exec (.mul d r) ⟨p, s⟩ = .next ⟨p, t⟩ ∧
      t.readReg d = wrap ((uval (s.readReg d) : Int) * uval (s.readReg r)))

/-- R136: with a divisor other than 0, `DIV` writes the wrapped quotient `q` rounded toward negative infinity
(R12), which the two bounds fix; with the divisor 0 it raises ARITHMETIC_FAULT(DIV_ZERO), and nothing else happens. -/
def Obligations.DivWritesTheFloorQuotient : Prop :=
  ∀ (p : Config.Params) (d r : RegIdx) (s : Arch p),
    HasEncoding (.div d r) "DIV".toList .RR ∧
    (sval (s.readReg r) ≠ 0 →
      ∃ (t : Arch p) (q : Int), exec (.div d r) ⟨p, s⟩ = .next ⟨p, t⟩ ∧ t.readReg d = wrap q ∧
        (0 < sval (s.readReg r) →
          q * sval (s.readReg r) ≤ sval (s.readReg d) ∧ sval (s.readReg d) < (q + 1) * sval (s.readReg r)) ∧
        (sval (s.readReg r) < 0 →
          q * sval (s.readReg r) ≥ sval (s.readReg d) ∧ sval (s.readReg d) > (q + 1) * sval (s.readReg r)) ∧
        t.pc = wrap ((uval s.pc : Int) + 1) ∧ OnlyRegisterWritten d s t ∧ t.draws = s.draws) ∧
    (s.readReg r = 0 → ∃ t, exec (.div d r) ⟨p, s⟩ = .next ⟨p, t⟩ ∧ ErrorHalted (.arithmeticFault .divZero) s t)

/-- R137, R138, R139: `AND`, `OR` and `NOT` act bit by bit. -/
def Obligations.AndOrNotActBitByBit : Prop :=
  ∀ (p : Config.Params) (d r : RegIdx) (s : Arch p),
    (HasEncoding (.and d r) "AND".toList .RR ∧
      ∃ t, exec (.and d r) ⟨p, s⟩ = .next ⟨p, t⟩ ∧
        (∀ k < p.xlen, (t.readReg d).getLsbD k = ((s.readReg d).getLsbD k && (s.readReg r).getLsbD k)) ∧
        t.pc = wrap ((uval s.pc : Int) + 1) ∧ OnlyRegisterWritten d s t ∧ t.draws = s.draws) ∧
    (HasEncoding (.or d r) "OR".toList .RR ∧
      ∃ t, exec (.or d r) ⟨p, s⟩ = .next ⟨p, t⟩ ∧
        (∀ k < p.xlen, (t.readReg d).getLsbD k = ((s.readReg d).getLsbD k || (s.readReg r).getLsbD k)) ∧
        t.pc = wrap ((uval s.pc : Int) + 1) ∧ OnlyRegisterWritten d s t ∧ t.draws = s.draws) ∧
    (HasEncoding (.not d r) "NOT".toList .RR ∧
      ∃ t, exec (.not d r) ⟨p, s⟩ = .next ⟨p, t⟩ ∧
        (∀ k < p.xlen, (t.readReg d).getLsbD k = !(s.readReg r).getLsbD k) ∧
        t.pc = wrap ((uval s.pc : Int) + 1) ∧ OnlyRegisterWritten d s t ∧ t.draws = s.draws)

/-- R140: by an amount `n` of 0 or more, however large, `SHL` writes the low XLEN bits of the value times `2^n`; by a
negative amount it raises ARITHMETIC_FAULT(NEG_SHIFT), and nothing else happens. -/
def Obligations.ShlWritesTheLowBitsOfTheShiftedValue : Prop :=
  ∀ (p : Config.Params) (d r : RegIdx) (s : Arch p),
    HasEncoding (.shl d r) "SHL".toList .RR ∧
    (0 ≤ sval (s.readReg r) →
      ∃ t, exec (.shl d r) ⟨p, s⟩ = .next ⟨p, t⟩ ∧
        t.readReg d = wrap (sval (s.readReg d) * 2 ^ (sval (s.readReg r)).toNat) ∧
        t.pc = wrap ((uval s.pc : Int) + 1) ∧ OnlyRegisterWritten d s t ∧ t.draws = s.draws) ∧
    (sval (s.readReg r) < 0 → ∃ t, exec (.shl d r) ⟨p, s⟩ = .next ⟨p, t⟩ ∧
      ErrorHalted (.arithmeticFault .negShift) s t)

/-- R141: by an amount `n` of 0 or more, however large, `SHR` writes the value divided by `2^n`, rounded toward negative
infinity, so that the sign is replicated; by a negative amount it raises ARITHMETIC_FAULT(NEG_SHIFT), and nothing else
happens. -/
def Obligations.ShrWritesTheFloorOfTheShiftedValue : Prop :=
  ∀ (p : Config.Params) (d r : RegIdx) (s : Arch p),
    HasEncoding (.shr d r) "SHR".toList .RR ∧
    (0 ≤ sval (s.readReg r) →
      ∃ (t : Arch p) (q : Int), exec (.shr d r) ⟨p, s⟩ = .next ⟨p, t⟩ ∧ t.readReg d = wrap q ∧
        q * 2 ^ (sval (s.readReg r)).toNat ≤ sval (s.readReg d) ∧
        sval (s.readReg d) < (q + 1) * 2 ^ (sval (s.readReg r)).toNat ∧
        t.pc = wrap ((uval s.pc : Int) + 1) ∧ OnlyRegisterWritten d s t ∧ t.draws = s.draws) ∧
    (sval (s.readReg r) < 0 → ∃ t, exec (.shr d r) ⟨p, s⟩ = .next ⟨p, t⟩ ∧
      ErrorHalted (.arithmeticFault .negShift) s t)

/-- `ADD Rd Rs` followed by `SUB Rd Rs` restores `x[d]` when `d != s`, overflow included, and gives 0 when
`d = s`. (The spec marks this, in R142, as its own inference from R131, R133 and R134.) -/
def Obligations.SubAfterAddRestoresTheRegister : Prop :=
  ∀ (p : Config.Params) (d r : RegIdx) (s : Arch p), ∃ t u,
    exec (.add d r) ⟨p, s⟩ = .next ⟨p, t⟩ ∧ exec (.sub d r) ⟨p, t⟩ = .next ⟨p, u⟩ ∧
    (d ≠ r → u.readReg d = s.readReg d) ∧ (d = r → u.readReg d = 0)

/-! ## Comparison (spec/42_compare.md) -/

/-- R160: `CMP` sets exactly one of F.EQ, F.AB and F.BE by the signed compare, clears none, and changes nothing else but
`pc`. -/
def Obligations.CmpSetsExactlyOneFlag : Prop :=
  ∀ (p : Config.Params) (a b : RegIdx) (s : Arch p),
    HasEncoding (.cmp a b) "CMP".toList .RR ∧
    ∃ t, exec (.cmp a b) ⟨p, s⟩ = .next ⟨p, t⟩ ∧
      t.flags.eq = (s.flags.eq || decide (sval (s.readReg a) = sval (s.readReg b))) ∧
      t.flags.ab = (s.flags.ab || decide (sval (s.readReg a) > sval (s.readReg b))) ∧
      t.flags.be = (s.flags.be || decide (sval (s.readReg a) < sval (s.readReg b))) ∧
      t.flags.ov = s.flags.ov ∧ t.flags.bt = s.flags.bt ∧ t.flags.co = s.flags.co ∧ t.flags.er = s.flags.er ∧
      t.pc = wrap ((uval s.pc : Int) + 1) ∧ SameRegisters s t ∧ t.cs = s.cs ∧ SameMemory s t ∧ SameRunState s t ∧
      SameProgram s t ∧ t.draws = s.draws

/-! ## Loads and stores (spec/43_load_store.md, spec/20_memory.md) -/

/-- R170, with R54's read: `LW` loads the word last written at its effective address; from an unwritten cell it loads `d`
under `Value(d)`, a fresh draw under `Any`, and raises MEMORY_FAULT under `Fault`. That a draw is `drawWord` of a
counter, which it advances by one, is the model's choice (log entry 4); whatever word `drawWord` is, the statement
holds. -/
def Obligations.LoadReturnsTheCellOrFollowsTheParameter : Prop :=
  ∀ (p : Config.Params) (r : RegIdx) (off : Int) (b : RegIdx) (s : Arch p),
    HasEncoding (.lw r off b) "LW".toList .RM ∧
    (∀ v, Memory.read s.mem (wrap (sval (s.readReg b) + sval (wrap off : Word p.xlen))) = some v →
      ∃ t, exec (.lw r off b) ⟨p, s⟩ = .next ⟨p, t⟩ ∧ t.readReg r = v ∧ t.pc = wrap ((uval s.pc : Int) + 1) ∧
        OnlyRegisterWritten r s t ∧ t.draws = s.draws) ∧
    (Memory.read s.mem (wrap (sval (s.readReg b) + sval (wrap off : Word p.xlen))) = none →
      (∀ v, p.unwrittenLoad = .value v →
        ∃ t, exec (.lw r off b) ⟨p, s⟩ = .next ⟨p, t⟩ ∧ t.readReg r = v ∧ t.pc = wrap ((uval s.pc : Int) + 1) ∧
          OnlyRegisterWritten r s t ∧ t.draws = s.draws) ∧
      (p.unwrittenLoad = .any →
        ∃ t, exec (.lw r off b) ⟨p, s⟩ = .next ⟨p, t⟩ ∧ t.readReg r = Config.drawWord p.xlen s.draws ∧
          t.pc = wrap ((uval s.pc : Int) + 1) ∧ OnlyRegisterWritten r s t ∧ t.draws = s.draws + 1) ∧
      (p.unwrittenLoad = .fault →
        ∃ t, exec (.lw r off b) ⟨p, s⟩ = .next ⟨p, t⟩ ∧ ErrorHalted .memoryFault s t))

/-- R171, R55, R172: `SW` writes the word at the effective address, always, and changes no other cell and nothing else
but `pc`. -/
def Obligations.StoreWritesOneWord : Prop :=
  ∀ (p : Config.Params) (r : RegIdx) (off : Int) (b : RegIdx) (s : Arch p),
    HasEncoding (.sw r off b) "SW".toList .RM ∧
    ∃ t, exec (.sw r off b) ⟨p, s⟩ = .next ⟨p, t⟩ ∧
      Memory.read t.mem (wrap (sval (s.readReg b) + sval (wrap off : Word p.xlen))) = some (s.readReg r) ∧
      SameMemoryBut (wrap (sval (s.readReg b) + sval (wrap off : Word p.xlen))) s t ∧
      t.pc = wrap ((uval s.pc : Int) + 1) ∧ SameRegisters s t ∧ t.flags = s.flags ∧ t.cs = s.cs ∧ SameRunState s t ∧
      SameProgram s t ∧ t.draws = s.draws

/-- R62: an `LW` sees the value of the most recent `SW` to the same address in program order: of two stores, the second
where their addresses are equal, and the first where they differ and the load's address is the first's. -/
def Obligations.LoadSeesTheMostRecentStore : Prop :=
  ∀ (p : Config.Params) (r₁ r₂ r₃ b₁ b₂ b₃ : RegIdx) (off₁ off₂ off₃ : Int) (s : Arch p), ∃ t u,
    exec (.sw r₁ off₁ b₁) ⟨p, s⟩ = .next ⟨p, t⟩ ∧ exec (.sw r₂ off₂ b₂) ⟨p, t⟩ = .next ⟨p, u⟩ ∧
    (effectiveAddress u off₃ b₃ = effectiveAddress t off₂ b₂ →
      ∃ w, exec (.lw r₃ off₃ b₃) ⟨p, u⟩ = .next ⟨p, w⟩ ∧ w.readReg r₃ = t.readReg r₂) ∧
    (effectiveAddress u off₃ b₃ = effectiveAddress s off₁ b₁ →
      effectiveAddress t off₂ b₂ ≠ effectiveAddress s off₁ b₁ →
      ∃ w, exec (.lw r₃ off₃ b₃) ⟨p, u⟩ = .next ⟨p, w⟩ ∧ w.readReg r₃ = s.readReg r₁)

/-! ## Control transfer (spec/44_control_flow.md) -/

/-- R181, R182, R192: `JPC` goes to `pc` plus its offset, `JR` to its register's value, `NOP` to the next instruction;
nothing else changes. -/
def Obligations.JumpsAndNopChangeOnlyThePc : Prop :=
  ∀ (p : Config.Params) (off : Int) (b : RegIdx) (s : Arch p),
    (HasEncoding (.jpc off) "JPC".toList .I ∧
      ∃ t, exec (.jpc off) ⟨p, s⟩ = .next ⟨p, t⟩ ∧ t.pc = wrap ((uval s.pc : Int) + sval (wrap off : Word p.xlen)) ∧
        t.cs = s.cs ∧ OnlyControlChanged s t) ∧
    (HasEncoding (.jr b) "JR".toList .R ∧
      ∃ t, exec (.jr b) ⟨p, s⟩ = .next ⟨p, t⟩ ∧ t.pc = s.readReg b ∧ t.cs = s.cs ∧ OnlyControlChanged s t) ∧
    (HasEncoding .nop "NOP".toList .N ∧
      ∃ t, exec .nop ⟨p, s⟩ = .next ⟨p, t⟩ ∧ t.pc = wrap ((uval s.pc : Int) + 1) ∧ t.cs = s.cs ∧
        OnlyControlChanged s t)

/-- R185, R186: `CALL` pushes its own address and goes to its register's value; with a finite CS_DEPTH and a full stack it
raises CALL_STACK_OVERFLOW instead. -/
def Obligations.CallPushesItsOwnAddress : Prop :=
  ∀ (p : Config.Params) (b : RegIdx) (s : Arch p),
    HasEncoding (.call b) "CALL".toList .R ∧
    (p.csDepth ≠ some s.cs.length →
      ∃ t, exec (.call b) ⟨p, s⟩ = .next ⟨p, t⟩ ∧ t.cs = s.cs ++ [s.pc] ∧ t.pc = s.readReg b ∧
        OnlyControlChanged s t) ∧
    (p.csDepth = some s.cs.length →
      ∃ t, exec (.call b) ⟨p, s⟩ = .next ⟨p, t⟩ ∧ ErrorHalted .callStackOverflow s t)

/-- R187: `RET` with a non-empty call stack pops the most recently pushed entry and goes to the address after it. -/
def Obligations.RetPopsAndReturnsPastTheCall : Prop :=
  ∀ (p : Config.Params) (s : Arch p) (below : List (Word p.xlen)) (v : Word p.xlen), s.cs = below ++ [v] →
    HasEncoding .ret "RET".toList .N ∧
    ∃ t, exec .ret ⟨p, s⟩ = .next ⟨p, t⟩ ∧ t.cs = below ∧ t.pc = wrap ((uval v : Int) + 1) ∧ OnlyControlChanged s t

/-- R188: `RET` with an empty call stack halts with cause RET_EMPTY_STACK, as an error or normally by
RET_EMPTY_IS_ERROR. -/
def Obligations.RetOnAnEmptyStackHalts : Prop :=
  ∀ (p : Config.Params) (s : Arch p), s.cs = [] →
    (p.retEmptyIsError = true → ∃ t, exec .ret ⟨p, s⟩ = .next ⟨p, t⟩ ∧ ErrorHalted .retEmptyStack s t) ∧
    (p.retEmptyIsError = false → ∃ t, exec .ret ⟨p, s⟩ = .next ⟨p, t⟩ ∧ NormalHalted .retEmptyStack s t)

/-- R190: `BRFL` goes to its register's value if `(FLAGS AND m) = (e AND m)`, and to the next instruction otherwise;
and no other instruction reads the flags: with other flags it has the same effect, each flag being left with the same
value or left as it was. -/
def Obligations.BrflBranchesOnTheMaskedFlags : Prop :=
  (∀ (p : Config.Params) (b : RegIdx) (e m : FlagLiteral) (s : Arch p),
    HasEncoding (.brfl b e m) "BRFL".toList .RLL ∧
    ∃ t, exec (.brfl b e m) ⟨p, s⟩ = .next ⟨p, t⟩ ∧
      (s.flags.pack &&& m = e &&& m → t.pc = s.readReg b) ∧
      (s.flags.pack &&& m ≠ e &&& m → t.pc = wrap ((uval s.pc : Int) + 1)) ∧
      t.cs = s.cs ∧ OnlyControlChanged s t) ∧
  (∀ (p : Config.Params) (i : Instr) (s : Arch p) (f : Flags), i.opcode ≠ .brfl →
    ∃ t g, exec i ⟨p, s⟩ = .next ⟨p, t⟩ ∧ exec i ⟨p, s.setFlags f⟩ = .next ⟨p, t.setFlags g⟩ ∧
      SameFlagEffect s.flags t.flags f g)

/-- The test of `BRFL` is done flag by flag: the branch is taken exactly when every flag whose mask bit is set equals its
expected bit. (The spec marks this, in R191, as its own inference from R190 and R26.) -/
def Obligations.BrflTestIsFlagByFlag : Prop :=
  ∀ (p : Config.Params) (b : RegIdx) (e m : FlagLiteral) (s : Arch p), ∃ t, exec (.brfl b e m) ⟨p, s⟩ = .next ⟨p, t⟩ ∧
    t.pc =
      if (m.getLsbD 6 = true → s.flags.ov = e.getLsbD 6) ∧ (m.getLsbD 5 = true → s.flags.ab = e.getLsbD 5) ∧
          (m.getLsbD 4 = true → s.flags.eq = e.getLsbD 4) ∧ (m.getLsbD 3 = true → s.flags.be = e.getLsbD 3) ∧
          (m.getLsbD 2 = true → s.flags.bt = e.getLsbD 2) ∧ (m.getLsbD 1 = true → s.flags.co = e.getLsbD 1) ∧
          (m.getLsbD 0 = true → s.flags.er = e.getLsbD 0)
      then s.readReg b else wrap ((uval s.pc : Int) + 1)

/-- A `CALL` at address `p` that transfers to a `RET` returns with `pc = p + 1` and the stack as it was before the
`CALL`. (The spec marks this, in R189, as its own inference from R185 and R187.) -/
def Obligations.CallThenRetReturnsPastTheCall : Prop :=
  ∀ (p : Config.Params) (s : Arch p) (b : RegIdx) (str : Text), Fetches s (.call b) → p.csDepth ≠ some s.cs.length →
    s.prog[uval (s.readReg b)]? = some str → decode p.xlen str = .ok .ret →
    ∃ t u, step ⟨p, s⟩ = .next ⟨p, t⟩ ∧ step ⟨p, t⟩ = .next ⟨p, u⟩ ∧ u.pc = wrap ((uval s.pc : Int) + 1) ∧
      u.cs = s.cs ∧ OnlyControlChanged s u

/-! ## The whole machine -/

/-- R27: which steps write which flag. F.EQ, F.AB and F.BE change only in a step of a `CMP`, F.ER only and always in an
error halt, F.OV, F.BT and F.CO in none; and no step clears a flag. -/
def Obligations.FlagsAreSetOnlyByCmpAndErrorHalts : Prop :=
  ∀ (p : Config.Params) (s t : Arch p), step ⟨p, s⟩ = .next ⟨p, t⟩ →
    t.flags.ov = s.flags.ov ∧ t.flags.bt = s.flags.bt ∧ t.flags.co = s.flags.co ∧
    (s.flags.eq = true → t.flags.eq = true) ∧ (s.flags.ab = true → t.flags.ab = true) ∧
    (s.flags.be = true → t.flags.be = true) ∧ (s.flags.er = true → t.flags.er = true) ∧
    ((t.flags.eq ≠ s.flags.eq ∨ t.flags.ab ≠ s.flags.ab ∨ t.flags.be ≠ s.flags.be) →
      ∃ a b, Fetches s (.cmp a b)) ∧
    (t.flags.er ≠ s.flags.er → t.status = .haltedError) ∧ (t.status = .haltedError → t.flags.er = true)

/-- R28: F.OV, F.BT and F.CO are written only by `reset`; and R29: a flag that is 1 stays 1 until `reset`, whatever
commands the host gives and however many steps they run. -/
def Obligations.FlagsStayUntilReset : Prop :=
  ∀ (p : Config.Params) (c : HostCommand p.xlen) (s : Arch p) (s' : State),
    hostCommand ⟨p, s⟩ c = some s' → c ≠ .reset → ∃ t, s' = ⟨p, t⟩ ∧
    t.flags.ov = s.flags.ov ∧ t.flags.bt = s.flags.bt ∧ t.flags.co = s.flags.co ∧
    (s.flags.eq = true → t.flags.eq = true) ∧ (s.flags.ab = true → t.flags.ab = true) ∧
    (s.flags.be = true → t.flags.be = true) ∧ (s.flags.er = true → t.flags.er = true)

/-- R20, R25 and R47: the register file has exactly 32 entries, each the register of one of the names R0 to R31, and
`FLAGS` has exactly seven bits: what is said of every `readReg k` is said of every register. -/
def Obligations.ThirtyTwoRegistersAndSevenFlags : Prop :=
  ∀ (p : Config.Params) (s : Arch p),
    s.regs.toList.length = 32 ∧ p.nflag = 7 ∧
    ∀ (j : Nat) (h : j < p.nreg), ∃ k : RegIdx, k.val = j ∧ s.readReg k = s.regs[j]

/-- R21: a step that changes a register fetched one of the eleven instructions that write one, and the register is that
instruction's first operand. -/
def Obligations.RegistersAreWrittenOnlyAsFirstOperands : Prop :=
  ∀ (p : Config.Params) (s t : Arch p) (k : RegIdx), step ⟨p, s⟩ = .next ⟨p, t⟩ → t.readReg k ≠ s.readReg k →
    ∃ i, Fetches s i ∧ destination i = some k

/-- R21: an instruction reads no register but its sources: with another value in a register that is none of them, its
next state is the same but for that value, which stays where it is, or the very same, where the register is its
destination and is written. -/
def Obligations.RegistersAreReadOnlyAsSources : Prop :=
  ∀ (p : Config.Params) (i : Instr) (s : Arch p) (k : RegIdx) (v : Word p.xlen), k ∉ sources i →
    ∃ t, exec i ⟨p, s⟩ = .next ⟨p, t⟩ ∧
      (exec i ⟨p, s.writeReg k v⟩ = .next ⟨p, t.writeReg k v⟩ ∨
        destination i = some k ∧ exec i ⟨p, s.writeReg k v⟩ = .next ⟨p, t⟩)

/-- R56: a step that changes a data cell fetched an `SW`, and the cell is at its effective address; no step changes the
instruction store (R51). -/
def Obligations.OnlyStoresChangeDataMemory : Prop :=
  ∀ (p : Config.Params) (s t : Arch p), step ⟨p, s⟩ = .next ⟨p, t⟩ →
    t.prog = s.prog ∧
    (∀ a, Memory.read t.mem a ≠ Memory.read s.mem a →
      ∃ r off b, Fetches s (.sw r off b) ∧ a = wrap (sval (s.readReg b) + sval (wrap off : Word p.xlen)))

/-- R54: only under `UNWRITTEN_LOAD = Any` does a step depend on the draws: otherwise the same state with another draw
counter (the model's own field, log entry 4) takes the same step and keeps that counter. -/
def Obligations.DrawsMatterOnlyUnderAny : Prop :=
  ∀ (p : Config.Params) (s : Arch p) (n : Nat), p.unwrittenLoad ≠ .any → s.status = .running →
    ∃ t, step ⟨p, s⟩ = .next ⟨p, t⟩ ∧ t.draws = s.draws ∧
      step ⟨p, { s with draws := n }⟩ = .next ⟨p, { t with draws := n }⟩

/-- R36: only `CALL` and `RET` change the call stack: `CALL` pushes its own address, `RET` pops the most recently pushed
entry. -/
def Obligations.OnlyCallAndRetChangeTheCallStack : Prop :=
  ∀ (p : Config.Params) (s t : Arch p), step ⟨p, s⟩ = .next ⟨p, t⟩ →
    t.cs = s.cs ∨ (∃ b, Fetches s (.call b) ∧ t.cs = s.cs ++ [s.pc]) ∨
      (Fetches s .ret ∧ ∃ v, s.cs = t.cs ++ [v] ∧ t.pc = wrap ((uval v : Int) + 1))

/-- Every step keeps the invariant: the run state and its cause agree (R41), F.ER is 1 exactly in an error halt (R47,
R191), the three unwritten flags stay 0 (R28), the data memory keeps its canonical form, the program's and the stack's
bounds hold (R51, R37). -/
def Obligations.EveryStepKeepsTheInvariant : Prop :=
  ∀ (p : Config.Params) (s t : Arch p), Inv s → step ⟨p, s⟩ = .next ⟨p, t⟩ → Inv t

/-- Every step keeps it that each call-stack entry is the address of a loaded `CALL` (R36, R47). -/
def Obligations.EveryStepKeepsStackEntriesCalls : Prop :=
  ∀ (p : Config.Params) (s t : Arch p), StackEntriesAreCalls s → step ⟨p, s⟩ = .next ⟨p, t⟩ → StackEntriesAreCalls t

/-- The invariant holds right after construction, for every value of the parameters, and in `State.reset`. -/
def Obligations.ConstructionSatisfiesTheInvariant : Prop :=
  Inv State.reset.arch ∧ StackEntriesAreCalls State.reset.arch ∧
    ∀ p : Config.Params, Inv (construct p).arch ∧ StackEntriesAreCalls (construct p).arch

/-- The invariant holds in every state the host's commands can bring the CORE to (R47, R218). -/
def Obligations.ReachableStatesSatisfyTheInvariant : Prop := ∀ s : State, Reachable s → Inv s.arch

/-! ## Reset and the host (spec/70_reset_and_hazards.md, spec/10_state.md, spec/60_exceptions.md) -/

/-- R48 and R231, for what the CORE holds: the power-on values, and that `reset` given to any state leaves the same
values but for the call stack. -/
def Obligations.PowerOnValues : Prop :=
  State.reset = construct Config.specParams ∧
  ∀ p : Config.Params, ∃ z : Arch p, construct p = ⟨p, z⟩ ∧
    (∀ k, z.readReg k = 0) ∧ z.flags.pack = 0b0000000#7 ∧ z.pc = 0 ∧ z.cs = [] ∧ z.status = .running ∧
    z.cause = .none ∧
    ∀ s : Arch p, ∃ t, hostCommand ⟨p, s⟩ .reset = some ⟨p, t⟩ ∧ SameRegisters z t ∧ t.flags = z.flags ∧
      t.pc = z.pc ∧ SameRunState z t

/-- R230: what `reset` writes, that it changes neither the call stack nor the two memories, and that no other command
leads out of a halted state. -/
def Obligations.ResetZeroesAllButTheCallStack : Prop :=
  ∀ (p : Config.Params) (s : Arch p),
    (∃ t, hostCommand ⟨p, s⟩ .reset = some ⟨p, t⟩ ∧
      (∀ k, t.readReg k = 0) ∧
      t.flags.ov = false ∧ t.flags.ab = false ∧ t.flags.eq = false ∧ t.flags.be = false ∧ t.flags.bt = false ∧
      t.flags.co = false ∧ t.flags.er = false ∧
      t.pc = 0 ∧ t.status = .running ∧ t.cause = .none ∧
      t.cs = s.cs ∧ SameProgram s t ∧ SameMemory s t) ∧
    (∀ (c : HostCommand p.xlen) (s' : State), s.status ≠ .running → hostCommand ⟨p, s⟩ c = some s' →
      s'.arch.status = .running → c = .reset)

/-- R26 and R43: the packed FLAGS, which the host reads in `NFLAG` bits, and the STATUS view. -/
def Obligations.FlagsAndStatusViews : Prop :=
  (∀ f : Flags, f.pack.getLsbD 6 = f.ov ∧ f.pack.getLsbD 5 = f.ab ∧ f.pack.getLsbD 4 = f.eq ∧
    f.pack.getLsbD 3 = f.be ∧ f.pack.getLsbD 2 = f.bt ∧ f.pack.getLsbD 1 = f.co ∧ f.pack.getLsbD 0 = f.er) ∧
  (∀ (p : Config.Params) (s : Arch p), s.packedFlags.toNat = s.flags.pack.toNat) ∧
  (∀ (p : Config.Params) (s : Arch p),
    s.statusView.toNat =
      (match s.status with | .running => 0 | .haltedNormal => 1 | .haltedError => 2) +
      4 * (match s.cause with
        | .none => 0 | .retEmptyStack => 1 | .unknownOpcode => 2 | .malformedInstruction => 3
        | .outOfRangeRegister => 4 | .arithmeticFault _ => 5 | .fetchFault => 6 | .memoryFault => 7
        | .callStackOverflow => 8) +
      64 * (if s.cause = .arithmeticFault .negShift then 1 else 0))

/-- R218: the commands that write a register, load a program, and preload or clear data memory change nothing else:
in particular the host writes neither `pc`, nor the flags, nor the call stack. -/
def Obligations.HostWritesOnlyWhatTheCommandNames : Prop :=
  ∀ (p : Config.Params) (s : Arch p),
    (∀ (k : RegIdx) (v : Word p.xlen), ∃ t, hostCommand ⟨p, s⟩ (.writeRegister k v) = some ⟨p, t⟩ ∧
      t.readReg k = v ∧ t.pc = s.pc ∧ OnlyRegisterWritten k s t ∧ t.draws = s.draws) ∧
    (∀ strs : List Text, strs.length ≤ 2 ^ (p.xlen - 1) →
      hostCommand ⟨p, s⟩ (.loadProgram strs) = some ⟨p, { s with prog := strs }⟩) ∧
    (∀ a v : Word p.xlen, ∃ t, hostCommand ⟨p, s⟩ (.preload a v) = some ⟨p, t⟩ ∧ Memory.read t.mem a = some v ∧
      SameMemoryBut a s t ∧ SameRegisters s t ∧ t.flags = s.flags ∧ t.pc = s.pc ∧ t.cs = s.cs ∧ SameRunState s t ∧
      SameProgram s t ∧ t.draws = s.draws) ∧
    (∀ a : Word p.xlen, Memory.wf s.mem → ∃ t, hostCommand ⟨p, s⟩ (.clearCell a) = some ⟨p, t⟩ ∧
      Memory.read t.mem a = none ∧ SameMemoryBut a s t ∧ SameRegisters s t ∧ t.flags = s.flags ∧ t.pc = s.pc ∧
      t.cs = s.cs ∧ SameRunState s t ∧ SameProgram s t ∧ t.draws = s.draws) ∧
    (∃ t, hostCommand ⟨p, s⟩ .clearMemory = some ⟨p, t⟩ ∧ (∀ a, Memory.read t.mem a = none) ∧
      SameRegisters s t ∧ t.flags = s.flags ∧ t.pc = s.pc ∧ t.cs = s.cs ∧ SameRunState s t ∧ SameProgram s t ∧
      t.draws = s.draws)
end

