-- ==== Sys2Proof/Laws/State.lean ====
section
/-! SUPPORT. One lemma per field per update of the state, and what reading a register gives after each update. -/

namespace Sys2Proof.Machine

variable {p : Config.Params} (s : Arch p)

@[simp] theorem writeReg_regs (i : RegIdx) (v : Word p.xlen) :
    (s.writeReg i v).regs = s.regs.set i.val v (regIdx_lt p i) := rfl
@[simp] theorem writeReg_flags (i : RegIdx) (v : Word p.xlen) : (s.writeReg i v).flags = s.flags := rfl
@[simp] theorem writeReg_pc (i : RegIdx) (v : Word p.xlen) : (s.writeReg i v).pc = s.pc := rfl
@[simp] theorem writeReg_cs (i : RegIdx) (v : Word p.xlen) : (s.writeReg i v).cs = s.cs := rfl
@[simp] theorem writeReg_status (i : RegIdx) (v : Word p.xlen) : (s.writeReg i v).status = s.status := rfl
@[simp] theorem writeReg_cause (i : RegIdx) (v : Word p.xlen) : (s.writeReg i v).cause = s.cause := rfl
@[simp] theorem writeReg_prog (i : RegIdx) (v : Word p.xlen) : (s.writeReg i v).prog = s.prog := rfl
@[simp] theorem writeReg_mem (i : RegIdx) (v : Word p.xlen) : (s.writeReg i v).mem = s.mem := rfl
@[simp] theorem writeReg_draws (i : RegIdx) (v : Word p.xlen) : (s.writeReg i v).draws = s.draws := rfl

@[simp] theorem setFlags_flags (f : Flags) : (s.setFlags f).flags = f := rfl
@[simp] theorem setFlags_regs (f : Flags) : (s.setFlags f).regs = s.regs := rfl
@[simp] theorem setFlags_pc (f : Flags) : (s.setFlags f).pc = s.pc := rfl
@[simp] theorem setFlags_cs (f : Flags) : (s.setFlags f).cs = s.cs := rfl
@[simp] theorem setFlags_status (f : Flags) : (s.setFlags f).status = s.status := rfl
@[simp] theorem setFlags_cause (f : Flags) : (s.setFlags f).cause = s.cause := rfl
@[simp] theorem setFlags_prog (f : Flags) : (s.setFlags f).prog = s.prog := rfl
@[simp] theorem setFlags_mem (f : Flags) : (s.setFlags f).mem = s.mem := rfl
@[simp] theorem setFlags_draws (f : Flags) : (s.setFlags f).draws = s.draws := rfl

@[simp] theorem jump_regs (target : Word p.xlen) : (s.jump target).regs = s.regs := rfl
@[simp] theorem jump_flags (target : Word p.xlen) : (s.jump target).flags = s.flags := rfl
@[simp] theorem jump_pc (target : Word p.xlen) : (s.jump target).pc = target := rfl
@[simp] theorem jump_cs (target : Word p.xlen) : (s.jump target).cs = s.cs := rfl
@[simp] theorem jump_status (target : Word p.xlen) : (s.jump target).status = s.status := rfl
@[simp] theorem jump_cause (target : Word p.xlen) : (s.jump target).cause = s.cause := rfl
@[simp] theorem jump_prog (target : Word p.xlen) : (s.jump target).prog = s.prog := rfl
@[simp] theorem jump_mem (target : Word p.xlen) : (s.jump target).mem = s.mem := rfl
@[simp] theorem jump_draws (target : Word p.xlen) : (s.jump target).draws = s.draws := rfl

@[simp] theorem advance_regs : s.advance.regs = s.regs := rfl
@[simp] theorem advance_flags : s.advance.flags = s.flags := rfl
@[simp] theorem advance_pc : s.advance.pc = nextPc s.pc := rfl
@[simp] theorem advance_cs : s.advance.cs = s.cs := rfl
@[simp] theorem advance_status : s.advance.status = s.status := rfl
@[simp] theorem advance_cause : s.advance.cause = s.cause := rfl
@[simp] theorem advance_prog : s.advance.prog = s.prog := rfl
@[simp] theorem advance_mem : s.advance.mem = s.mem := rfl
@[simp] theorem advance_draws : s.advance.draws = s.draws := rfl

@[simp] theorem pushCall_regs (v : Word p.xlen) : (s.pushCall v).regs = s.regs := rfl
@[simp] theorem pushCall_flags (v : Word p.xlen) : (s.pushCall v).flags = s.flags := rfl
@[simp] theorem pushCall_pc (v : Word p.xlen) : (s.pushCall v).pc = s.pc := rfl
@[simp] theorem pushCall_cs (v : Word p.xlen) : (s.pushCall v).cs = s.cs ++ [v] := rfl
@[simp] theorem pushCall_status (v : Word p.xlen) : (s.pushCall v).status = s.status := rfl
@[simp] theorem pushCall_cause (v : Word p.xlen) : (s.pushCall v).cause = s.cause := rfl
@[simp] theorem pushCall_prog (v : Word p.xlen) : (s.pushCall v).prog = s.prog := rfl
@[simp] theorem pushCall_mem (v : Word p.xlen) : (s.pushCall v).mem = s.mem := rfl
@[simp] theorem pushCall_draws (v : Word p.xlen) : (s.pushCall v).draws = s.draws := rfl

@[simp] theorem memWrite_regs (a v : Word p.xlen) : (memWrite s a v).regs = s.regs := rfl
@[simp] theorem memWrite_flags (a v : Word p.xlen) : (memWrite s a v).flags = s.flags := rfl
@[simp] theorem memWrite_pc (a v : Word p.xlen) : (memWrite s a v).pc = s.pc := rfl
@[simp] theorem memWrite_cs (a v : Word p.xlen) : (memWrite s a v).cs = s.cs := rfl
@[simp] theorem memWrite_status (a v : Word p.xlen) : (memWrite s a v).status = s.status := rfl
@[simp] theorem memWrite_cause (a v : Word p.xlen) : (memWrite s a v).cause = s.cause := rfl
@[simp] theorem memWrite_prog (a v : Word p.xlen) : (memWrite s a v).prog = s.prog := rfl
@[simp] theorem memWrite_mem (a v : Word p.xlen) : (memWrite s a v).mem = Memory.write s.mem a v := rfl
@[simp] theorem memWrite_draws (a v : Word p.xlen) : (memWrite s a v).draws = s.draws := rfl

@[simp] theorem errorHalt_regs (c : Cause) : (s.errorHalt c).regs = s.regs := rfl
@[simp] theorem errorHalt_flags (c : Cause) : (s.errorHalt c).flags = { s.flags with er := true } := rfl
@[simp] theorem errorHalt_pc (c : Cause) : (s.errorHalt c).pc = s.pc := rfl
@[simp] theorem errorHalt_cs (c : Cause) : (s.errorHalt c).cs = s.cs := rfl
@[simp] theorem errorHalt_status (c : Cause) : (s.errorHalt c).status = .haltedError := rfl
@[simp] theorem errorHalt_cause (c : Cause) : (s.errorHalt c).cause = c := rfl
@[simp] theorem errorHalt_prog (c : Cause) : (s.errorHalt c).prog = s.prog := rfl
@[simp] theorem errorHalt_mem (c : Cause) : (s.errorHalt c).mem = s.mem := rfl
@[simp] theorem errorHalt_draws (c : Cause) : (s.errorHalt c).draws = s.draws := rfl

@[simp] theorem normalHalt_regs (c : Cause) : (s.normalHalt c).regs = s.regs := rfl
@[simp] theorem normalHalt_flags (c : Cause) : (s.normalHalt c).flags = s.flags := rfl
@[simp] theorem normalHalt_pc (c : Cause) : (s.normalHalt c).pc = s.pc := rfl
@[simp] theorem normalHalt_cs (c : Cause) : (s.normalHalt c).cs = s.cs := rfl
@[simp] theorem normalHalt_status (c : Cause) : (s.normalHalt c).status = .haltedNormal := rfl
@[simp] theorem normalHalt_cause (c : Cause) : (s.normalHalt c).cause = c := rfl
@[simp] theorem normalHalt_prog (c : Cause) : (s.normalHalt c).prog = s.prog := rfl
@[simp] theorem normalHalt_mem (c : Cause) : (s.normalHalt c).mem = s.mem := rfl
@[simp] theorem normalHalt_draws (c : Cause) : (s.normalHalt c).draws = s.draws := rfl

@[simp] theorem resetCommand_regs : (resetCommand s).regs = Vector.replicate p.nreg 0 := rfl
@[simp] theorem resetCommand_flags : (resetCommand s).flags = ⟨false, false, false, false, false, false, false⟩ := rfl
@[simp] theorem resetCommand_pc : (resetCommand s).pc = 0 := rfl
@[simp] theorem resetCommand_cs : (resetCommand s).cs = s.cs := rfl
@[simp] theorem resetCommand_status : (resetCommand s).status = .running := rfl
@[simp] theorem resetCommand_cause : (resetCommand s).cause = .none := rfl
@[simp] theorem resetCommand_prog : (resetCommand s).prog = s.prog := rfl
@[simp] theorem resetCommand_mem : (resetCommand s).mem = s.mem := rfl
@[simp] theorem resetCommand_draws : (resetCommand s).draws = s.draws := rfl

@[simp] theorem jump_readReg (target : Word p.xlen) (k : RegIdx) : (s.jump target).readReg k = s.readReg k := rfl
@[simp] theorem advance_readReg (k : RegIdx) : s.advance.readReg k = s.readReg k := rfl
@[simp] theorem setFlags_readReg (f : Flags) (k : RegIdx) : (s.setFlags f).readReg k = s.readReg k := rfl
@[simp] theorem pushCall_readReg (v : Word p.xlen) (k : RegIdx) : (s.pushCall v).readReg k = s.readReg k := rfl
@[simp] theorem memWrite_readReg (a v : Word p.xlen) (k : RegIdx) : (memWrite s a v).readReg k = s.readReg k := rfl
@[simp] theorem errorHalt_readReg (c : Cause) (k : RegIdx) : (s.errorHalt c).readReg k = s.readReg k := rfl
@[simp] theorem normalHalt_readReg (c : Cause) (k : RegIdx) : (s.normalHalt c).readReg k = s.readReg k := rfl

/-- Every register of the register file has one of the names `R0` to `R31` (R20). -/
theorem exists_readReg (j : Nat) (h : j < p.nreg) : ∃ k : RegIdx, k.val = j ∧ s.readReg k = s.regs[j] :=
  ⟨⟨j, p.nreg_eq ▸ h⟩, rfl, rfl⟩

@[simp] theorem readReg_writeReg_same (i : RegIdx) (v : Word p.xlen) : (s.writeReg i v).readReg i = v := by
  simp [Arch.readReg, Arch.writeReg]

theorem readReg_writeReg_other {i k : RegIdx} (v : Word p.xlen) (h : k ≠ i) : (s.writeReg i v).readReg k = s.readReg k := by
  have h' : (i : Nat) ≠ (k : Nat) := fun e => h (Fin.ext e.symm)
  simp [Arch.readReg, Arch.writeReg, h']

@[simp] theorem powerOn_readReg (k : RegIdx) : (Arch.powerOn p).readReg k = 0 := by
  simp [Arch.readReg, Arch.powerOn]

@[simp] theorem resetCommand_readReg (k : RegIdx) : (resetCommand s).readReg k = 0 := by
  simp [Arch.readReg]

/-! ## The flags -/

@[simp] theorem flagWidth_toNat (l : BitVec 7) : (flagWidth p l).toNat = l.toNat := rfl

theorem flagWidth_inj {a b : BitVec 7} : flagWidth p a = flagWidth p b ↔ a = b := by
  simp [← BitVec.toNat_inj]

theorem flagWidth_and (a b : BitVec 7) : flagWidth p a &&& flagWidth p b = flagWidth p (a &&& b) := by
  apply BitVec.eq_of_toNat_eq
  simp

@[simp] theorem packedFlags_toNat : s.packedFlags.toNat = s.flags.pack.toNat := rfl

/-- The test of `BRFL` on seven-bit patterns (R190). -/
theorem flagsMatch_iff {e m : FlagLiteral} : s.flagsMatch e m = true ↔ s.flags.pack &&& m = e &&& m := by
  rw [Arch.flagsMatch, decide_eq_true_iff, Arch.packedFlags, flagWidth_and, flagWidth_and, flagWidth_inj]

end Sys2Proof.Machine
end

