-- ==== Sys2Proof/Laws/Memory.lean ====
section
/-! SUPPORT. The laws of the data memory: a read after a write, and that every operation keeps the canonical form. -/

namespace Sys2Proof.Machine

variable {w : Nat}

theorem Memory.readAt_none_of_lt {m : Memory w} {n : Nat} (h : ∀ c ∈ m, n < c.1) : Memory.readAt m n = none := by
  induction m with
  | nil => rfl
  | cons c m ih =>
    obtain ⟨k, u⟩ := c
    have hk : n < k := h (k, u) (by simp)
    rw [Memory.readAt, if_neg (by omega)]
    exact ih fun c hc => h c (by simp [hc])

theorem Memory.readAt_writeAt_same (m : Memory w) (n : Nat) (v : Word w) :
    Memory.readAt (Memory.writeAt m n v) n = some v := by
  induction m with
  | nil => simp [Memory.writeAt, Memory.readAt]
  | cons c m ih =>
    obtain ⟨k, u⟩ := c
    rw [Memory.writeAt]
    split
    · simp [Memory.readAt]
    · split
      · simp [Memory.readAt]
      · rw [Memory.readAt, if_neg (by omega)]
        exact ih

theorem Memory.readAt_writeAt_other (m : Memory w) {n k : Nat} (v : Word w) (h : k ≠ n) :
    Memory.readAt (Memory.writeAt m n v) k = Memory.readAt m k := by
  induction m with
  | nil => simp [Memory.writeAt, Memory.readAt, h.symm]
  | cons c m ih =>
    obtain ⟨j, u⟩ := c
    rw [Memory.writeAt]
    split
    · rw [Memory.readAt, if_neg h.symm]
    · split
      · next e => subst e; simp [Memory.readAt, h.symm]
      · simp only [Memory.readAt, ih]

theorem Memory.readAt_clearAt_other (m : Memory w) {n k : Nat} (h : k ≠ n) :
    Memory.readAt (Memory.clearAt m n) k = Memory.readAt m k := by
  induction m with
  | nil => rfl
  | cons c m ih =>
    obtain ⟨j, u⟩ := c
    rw [Memory.clearAt]
    split
    · next e => subst e; simp [Memory.readAt, h.symm]
    · simp only [Memory.readAt, ih]

theorem Memory.writeAt_mem {m : Memory w} {n : Nat} {v : Word w} {c : Cell w} (h : c ∈ Memory.writeAt m n v) :
    c = (n, v) ∨ c ∈ m := by
  induction m with
  | nil => simpa [Memory.writeAt] using h
  | cons d m ih =>
    obtain ⟨k, u⟩ := d
    rw [Memory.writeAt] at h
    split at h
    · simpa using h
    · split at h
      · simp only [List.mem_cons] at h ⊢; tauto
      · simp only [List.mem_cons] at h ⊢
        rcases h with h | h
        · tauto
        · rcases ih h with h | h <;> tauto

theorem Memory.clearAt_mem {m : Memory w} {n : Nat} {c : Cell w} (h : c ∈ Memory.clearAt m n) : c ∈ m := by
  induction m with
  | nil => simp [Memory.clearAt] at h
  | cons d m ih =>
    obtain ⟨k, u⟩ := d
    rw [Memory.clearAt] at h
    split at h
    · simp [h]
    · simp only [List.mem_cons] at h ⊢
      exact h.imp id ih

theorem Memory.writeAt_pairwise {m : Memory w} (n : Nat) (v : Word w) (h : m.Pairwise fun c c' => c.1 < c'.1) :
    (Memory.writeAt m n v).Pairwise fun c c' => c.1 < c'.1 := by
  induction m with
  | nil => simp [Memory.writeAt]
  | cons d m ih =>
    obtain ⟨k, u⟩ := d
    obtain ⟨hk, hm⟩ := List.pairwise_cons.mp h
    rw [Memory.writeAt]
    split
    · next hlt =>
      refine List.pairwise_cons.mpr ⟨fun c hc => ?_, h⟩
      rcases List.mem_cons.mp hc with rfl | hc
      · exact hlt
      · exact lt_trans hlt (hk c hc)
    · split
      · next e => subst e; exact List.pairwise_cons.mpr ⟨hk, hm⟩
      · refine List.pairwise_cons.mpr ⟨fun c hc => ?_, ih hm⟩
        rcases Memory.writeAt_mem hc with rfl | hc
        · show k < n
          omega
        · exact hk c hc

theorem Memory.clearAt_pairwise {m : Memory w} (n : Nat) (h : m.Pairwise fun c c' => c.1 < c'.1) :
    (Memory.clearAt m n).Pairwise fun c c' => c.1 < c'.1 := by
  induction m with
  | nil => exact h
  | cons d m ih =>
    obtain ⟨k, u⟩ := d
    obtain ⟨hk, hm⟩ := List.pairwise_cons.mp h
    rw [Memory.clearAt]
    split
    · exact hm
    · exact List.pairwise_cons.mpr ⟨fun c hc => hk c (Memory.clearAt_mem hc), ih hm⟩

theorem Memory.wf_iff {m : Memory w} :
    Memory.wf m = true ↔ m.Pairwise (fun c c' => c.1 < c'.1) ∧ ∀ c ∈ m, c.1 < 2 ^ w := by
  simp only [Memory.wf, decide_eq_true_eq]

/-- A store keeps the canonical form. -/
theorem Memory.write_wf {m : Memory w} (a v : Word w) (h : Memory.wf m) : Memory.wf (Memory.write m a v) := by
  rw [Memory.wf_iff] at h ⊢
  refine ⟨Memory.writeAt_pairwise _ _ h.1, fun c hc => ?_⟩
  rcases Memory.writeAt_mem hc with rfl | hc
  · exact a.isLt
  · exact h.2 c hc

/-- Clearing a cell keeps the canonical form. -/
theorem Memory.clear_wf {m : Memory w} (a : Word w) (h : Memory.wf m) : Memory.wf (Memory.clear m a) := by
  rw [Memory.wf_iff] at h ⊢
  exact ⟨Memory.clearAt_pairwise _ h.1, fun c hc => h.2 c (Memory.clearAt_mem hc)⟩

theorem Memory.nil_wf : Memory.wf ([] : Memory w) := rfl

/-- The memory right after construction has the canonical form. -/
theorem reset_memory_wf : Memory.wf State.reset.arch.mem := Memory.nil_wf

@[simp] theorem Memory.read_write_same (m : Memory w) (a v : Word w) : Memory.read (Memory.write m a v) a = some v :=
  Memory.readAt_writeAt_same m _ v

theorem Memory.read_write_other (m : Memory w) {a b : Word w} (v : Word w) (h : b ≠ a) :
    Memory.read (Memory.write m a v) b = Memory.read m b :=
  Memory.readAt_writeAt_other m v fun e => h (BitVec.eq_of_toNat_eq e)

theorem Memory.read_clear_other (m : Memory w) {a b : Word w} (h : b ≠ a) :
    Memory.read (Memory.clear m a) b = Memory.read m b :=
  Memory.readAt_clearAt_other m fun e => h (BitVec.eq_of_toNat_eq e)

/-- A cleared cell is unwritten, in a memory of the canonical form. -/
theorem Memory.read_clear_same {m : Memory w} (a : Word w) (h : Memory.wf m) :
    Memory.read (Memory.clear m a) a = none := by
  replace h := (Memory.wf_iff.mp h).1
  show Memory.readAt (Memory.clearAt m (uval a)) (uval a) = none
  generalize uval a = n
  induction m with
  | nil => rfl
  | cons d m ih =>
    obtain ⟨k, u⟩ := d
    obtain ⟨hk, hm⟩ := List.pairwise_cons.mp h
    rw [Memory.clearAt]
    split
    · next e => subst e; exact Memory.readAt_none_of_lt hk
    · next e => rw [Memory.readAt, if_neg e]; exact ih hm

theorem Memory.readAt_some_mem {m : Memory w} {n : Nat} {v : Word w} (h : Memory.readAt m n = some v) : (n, v) ∈ m := by
  induction m with
  | nil => simp [Memory.readAt] at h
  | cons d m ih =>
    obtain ⟨k, u⟩ := d
    rw [Memory.readAt] at h
    split at h
    · next e => subst e; simp_all
    · exact List.mem_cons_of_mem _ (ih h)

theorem Memory.readAt_of_mem {m : Memory w} {n : Nat} {v : Word w} (h : m.Pairwise fun c c' => c.1 < c'.1)
    (hm : (n, v) ∈ m) : Memory.readAt m n = some v := by
  induction m with
  | nil => simp at hm
  | cons d m ih =>
    obtain ⟨k, u⟩ := d
    obtain ⟨hk, hp⟩ := List.pairwise_cons.mp h
    rw [Memory.readAt]
    rcases List.mem_cons.mp hm with e | hm
    · simp_all
    · have : k < n := hk _ hm
      rw [if_neg (by omega)]
      exact ih hp hm

/-- In the canonical form, memories that read alike everywhere are equal data. -/
theorem Memory.ext_of_read {m m' : Memory w} (h : Memory.wf m) (h' : Memory.wf m')
    (hr : ∀ a, Memory.read m a = Memory.read m' a) : m = m' := by
  have key : ∀ {p q : Memory w}, Memory.wf p → Memory.wf q → (∀ a, Memory.read p a = Memory.read q a) →
      ∀ c ∈ p, c ∈ q := by
    intro p q hp hq e c hc
    obtain ⟨n, v⟩ := c
    have hn : n < 2 ^ w := (Memory.wf_iff.mp hp).2 _ hc
    have hread := e (BitVec.ofNat w n)
    have hu : uval (BitVec.ofNat w n) = n := by
      show (BitVec.ofNat w n).toNat = n
      rw [BitVec.toNat_ofNat, Nat.mod_eq_of_lt hn]
    rw [Memory.read, Memory.read, hu, Memory.readAt_of_mem (Memory.wf_iff.mp hp).1 hc] at hread
    exact Memory.readAt_some_mem hread.symm
  have sub : ∀ c, c ∈ m ↔ c ∈ m' := fun c => ⟨key h h' hr c, key h' h (fun a => (hr a).symm) c⟩
  have nodup : ∀ {p : Memory w}, Memory.wf p → p.Nodup := fun hp =>
    (Memory.wf_iff.mp hp).1.imp fun {a b} hab e => by rw [e] at hab; exact lt_irrefl _ hab
  exact List.Perm.eq_of_pairwise (fun a b _ _ h1 h2 => absurd (lt_trans h1 h2) (lt_irrefl _))
    (Memory.wf_iff.mp h).1 (Memory.wf_iff.mp h').1
    ((List.perm_ext_iff_of_nodup (nodup h) (nodup h')).mpr sub)

end Sys2Proof.Machine
end

