-- ==== Sys2Proof/Laws/Step.lean ====
section
/-! SUPPORT. What a shared operation, an instruction and a step can do, each said once. -/

namespace Sys2Proof.Machine

variable {p : Config.Params} {w : Nat}

/-! ## Shared operations -/

@[simp] theorem raise_next (c : Cause) (s : Arch p) : raise c s = .next ⟨p, s.errorHalt c⟩ := rfl

@[simp] theorem haltNormal_next (c : Cause) (s : Arch p) : haltNormal c s = .next ⟨p, s.normalHalt c⟩ := rfl

@[simp] theorem writeBack_next (d : RegIdx) (v : Word p.xlen) (s : Arch p) :
    writeBack d v s = .next ⟨p, (s.writeReg d v).advance⟩ := rfl

/-- A load raises only on an unwritten cell with `UNWRITTEN_LOAD = Fault` (R54). -/
theorem memRead_eq_none {s : Arch p} {a : Word p.xlen} :
    memRead s a = none ↔ Memory.read s.mem a = none ∧ p.unwrittenLoad = .fault := by
  unfold memRead
  cases h : Memory.read s.mem a <;> cases h' : p.unwrittenLoad <;> simp

/-- A load that does not raise changes at most the draw counter. -/
theorem memRead_eq_some {s s' : Arch p} {a v : Word p.xlen} (h : memRead s a = some (v, s')) :
    ∃ n, s' = { s with draws := n } := by
  unfold memRead at h
  split at h
  · exact ⟨s.draws, by simp_all⟩
  · split at h
    · simp at h
    · exact ⟨s.draws, by simp_all⟩
    · exact ⟨s.draws + 1, by simp_all⟩

/-- A pop takes the last entry of the stack (R36). -/
theorem popCall_eq_some {s s' : Arch p} {v : Word p.xlen} (h : s.popCall = some (v, s')) :
    ∃ below, s.cs = below ++ [v] ∧ s' = { s with cs := below } := by
  unfold Arch.popCall at h
  split at h
  · simp at h
  · next u hu =>
    obtain ⟨below, hb⟩ := List.getLast?_eq_some_iff.mp hu
    simp only [Option.some.injEq, Prod.mk.injEq] at h
    obtain ⟨rfl, rfl⟩ := h
    exact ⟨below, hb, by rw [hb, List.dropLast_concat]⟩

theorem popCall_eq_none {s : Arch p} : s.popCall = none ↔ s.cs = [] := by
  rw [← List.getLast?_eq_none_iff]
  unfold Arch.popCall
  cases s.cs.getLast? <;> simp

theorem popCall_concat {s : Arch p} {below : List (Word p.xlen)} {v : Word p.xlen} (h : s.cs = below ++ [v]) :
    s.popCall = some (v, { s with cs := below }) := by
  simp [Arch.popCall, h]

theorem callStackFull_iff {s : Arch p} : s.callStackFull = true ↔ p.csDepth = some s.cs.length := by
  simp [Arch.callStackFull]

theorem shiftAmount_eq_none {v : Word w} : shiftAmount v = none ↔ sval v < 0 := by
  unfold shiftAmount
  split <;> simp_all

theorem shiftAmount_eq_some {v : Word w} {n : Nat} (h : shiftAmount v = some n) : sval v = n := by
  unfold shiftAmount at h
  split at h
  · simp at h
  · simp only [Option.some.injEq] at h
    omega

theorem divResult_eq_none {a b : Word w} : divResult a b = none ↔ sval b = 0 := by
  unfold divResult
  split <;> simp_all

/-- What `CMP` does to each flag depends on the compared values alone (R160). -/
theorem setCompare_sameFlagEffect (s f : Flags) (A B : Int) :
    SameFlagEffect s (s.setCompare A B) f (f.setCompare A B) := by
  unfold Flags.setCompare
  split
  · simp [SameFlagEffect]
  · split <;> simp [SameFlagEffect]

/-! ## Instructions -/

/-- Which instruction raises which cause, and when (R201, R208). -/
inductive ExecRaises (s : Arch p) : Instr → Cause → Prop where
  | divZero (d r : RegIdx) (h : sval (s.readReg r) = 0) : ExecRaises s (.div d r) (.arithmeticFault .divZero)
  | shlNegative (d r : RegIdx) (h : sval (s.readReg r) < 0) : ExecRaises s (.shl d r) (.arithmeticFault .negShift)
  | shrNegative (d r : RegIdx) (h : sval (s.readReg r) < 0) : ExecRaises s (.shr d r) (.arithmeticFault .negShift)
  | loadUnwritten (t : RegIdx) (off : Int) (b : RegIdx)
      (h : Memory.read s.mem (effectiveAddress s off b) = none) (hp : p.unwrittenLoad = .fault) :
      ExecRaises s (.lw t off b) .memoryFault
  | callFull (b : RegIdx) (h : p.csDepth = some s.cs.length) : ExecRaises s (.call b) .callStackOverflow
  | retEmpty (h : s.cs = []) (hp : p.retEmptyIsError = true) : ExecRaises s .ret .retEmptyStack

/-- Everything an instruction can do. -/
inductive ExecEffect (s : Arch p) : Instr → Arch p → Prop where
  | errorHalt {i : Instr} {c : Cause} (h : ExecRaises s i c) : ExecEffect s i (s.errorHalt c)
  | normalHalt (h : s.cs = []) (hp : p.retEmptyIsError = false) :
      ExecEffect s .ret (s.normalHalt .retEmptyStack)
  | register {i : Instr} {d : RegIdx} (n : Nat) (v : Word p.xlen) (h : destination i = some d) (hs : IsStraightLine i)
      (hr : ∀ c, ¬ ExecRaises s i c) :
      ExecEffect s i (Arch.writeReg { s with draws := n } d v).advance
  | compare (a b : RegIdx) :
      ExecEffect s (.cmp a b)
        (s.setFlags (s.flags.setCompare (sval (s.readReg a)) (sval (s.readReg b)))).advance
  | store (t : RegIdx) (off : Int) (b : RegIdx) :
      ExecEffect s (.sw t off b) (memWrite s (effectiveAddress s off b) (s.readReg t)).advance
  | jpc (off : Int) : ExecEffect s (.jpc off) (s.jump (relativeTarget s.pc off))
  | jr (b : RegIdx) : ExecEffect s (.jr b) (s.jump (s.readReg b))
  | call (b : RegIdx) (h : p.csDepth ≠ some s.cs.length) :
      ExecEffect s (.call b) ((s.pushCall s.pc).jump (s.readReg b))
  | ret (below : List (Word p.xlen)) (v : Word p.xlen) (h : s.cs = below ++ [v]) :
      ExecEffect s .ret (Arch.jump { s with cs := below } (nextPc v))
  | brflTaken (b : RegIdx) (e m : FlagLiteral) (h : s.flagsMatch e m = true) :
      ExecEffect s (.brfl b e m) (s.jump (s.readReg b))
  | brflFallsThrough (b : RegIdx) (e m : FlagLiteral) (h : s.flagsMatch e m = false) :
      ExecEffect s (.brfl b e m) s.advance
  | nop : ExecEffect s .nop s.advance

/-- A register write that keeps the draw counter is one of the register effects. -/
theorem ExecEffect.write {s : Arch p} {i : Instr} {d : RegIdx} (v : Word p.xlen) (h : destination i = some d)
    (hs : IsStraightLine i) (hr : ∀ c, ¬ ExecRaises s i c) : ExecEffect s i (s.writeReg d v).advance :=
  ExecEffect.register (s := s) s.draws v h hs hr

/-- Every instruction answers a next state, which is one of its effects. -/
theorem exec_effect (i : Instr) (s : Arch p) : ∃ t, exec i ⟨p, s⟩ = .next ⟨p, t⟩ ∧ ExecEffect s i t := by
  cases i with
  | mov d r => exact ⟨_, rfl, .write _ rfl (by simp [IsStraightLine, Instr.opcode]) (by rintro c ⟨⟩)⟩
  | add d r => exact ⟨_, rfl, .write _ rfl (by simp [IsStraightLine, Instr.opcode]) (by rintro c ⟨⟩)⟩
  | sub d r => exact ⟨_, rfl, .write _ rfl (by simp [IsStraightLine, Instr.opcode]) (by rintro c ⟨⟩)⟩
  | mul d r => exact ⟨_, rfl, .write _ rfl (by simp [IsStraightLine, Instr.opcode]) (by rintro c ⟨⟩)⟩
  | and d r => exact ⟨_, rfl, .write _ rfl (by simp [IsStraightLine, Instr.opcode]) (by rintro c ⟨⟩)⟩
  | or d r => exact ⟨_, rfl, .write _ rfl (by simp [IsStraightLine, Instr.opcode]) (by rintro c ⟨⟩)⟩
  | not d r => exact ⟨_, rfl, .write _ rfl (by simp [IsStraightLine, Instr.opcode]) (by rintro c ⟨⟩)⟩
  | div d r =>
    simp only [exec, execDiv]
    cases h : divResult (s.readReg d) (s.readReg r) with
    | none => exact ⟨_, rfl, .errorHalt (.divZero d r (divResult_eq_none.mp h))⟩
    | some q =>
      refine ⟨_, rfl, .write _ rfl (by simp [IsStraightLine, Instr.opcode]) ?_⟩
      intro c hc
      cases hc with
      | divZero _ _ hz => simp [divResult_eq_none.mpr hz] at h
  | shl d r =>
    simp only [exec, execShl, execShift]
    cases h : shiftAmount (s.readReg r) with
    | none => exact ⟨_, rfl, .errorHalt (.shlNegative d r (shiftAmount_eq_none.mp h))⟩
    | some n =>
      refine ⟨_, rfl, .write _ rfl (by simp [IsStraightLine, Instr.opcode]) ?_⟩
      intro c hc
      cases hc with
      | shlNegative _ _ hz => simp [shiftAmount_eq_none.mpr hz] at h
  | shr d r =>
    simp only [exec, execShr, execShift]
    cases h : shiftAmount (s.readReg r) with
    | none => exact ⟨_, rfl, .errorHalt (.shrNegative d r (shiftAmount_eq_none.mp h))⟩
    | some n =>
      refine ⟨_, rfl, .write _ rfl (by simp [IsStraightLine, Instr.opcode]) ?_⟩
      intro c hc
      cases hc with
      | shrNegative _ _ hz => simp [shiftAmount_eq_none.mpr hz] at h
  | cmp a b => exact ⟨_, rfl, .compare a b⟩
  | lw t off b =>
    simp only [exec, execLw]
    cases h : memRead s (effectiveAddress s off b) with
    | none => exact ⟨_, rfl, .errorHalt (.loadUnwritten t off b (memRead_eq_none.mp h).1 (memRead_eq_none.mp h).2)⟩
    | some p =>
      obtain ⟨v, s'⟩ := p
      obtain ⟨n, rfl⟩ := memRead_eq_some h
      refine ⟨_, rfl, .register n v rfl (by simp [IsStraightLine, Instr.opcode]) ?_⟩
      intro c hc
      cases hc with
      | loadUnwritten _ _ _ hz hp => simp [memRead_eq_none.mpr ⟨hz, hp⟩] at h
  | sw t off b => exact ⟨_, rfl, .store t off b⟩
  | jpc off => exact ⟨_, rfl, .jpc off⟩
  | jr b => exact ⟨_, rfl, .jr b⟩
  | call b =>
    simp only [exec, execCall]
    split
    · next h => exact ⟨_, rfl, .errorHalt (.callFull b (callStackFull_iff.mp h))⟩
    · next h => exact ⟨_, rfl, .call b fun e => h (callStackFull_iff.mpr e)⟩
  | ret =>
    simp only [exec, execRet]
    cases h : s.popCall with
    | none =>
      simp only
      split
      · next hp => exact ⟨_, rfl, .errorHalt (.retEmpty (popCall_eq_none.mp h) hp)⟩
      · next hp => exact ⟨_, rfl, .normalHalt (popCall_eq_none.mp h) (by simpa using hp)⟩
    | some p =>
      obtain ⟨v, s'⟩ := p
      obtain ⟨below, hb, rfl⟩ := popCall_eq_some h
      exact ⟨_, rfl, .ret below v hb⟩
  | brfl b e m =>
    simp only [exec, execBrfl]
    split
    · next h => exact ⟨_, rfl, .brflTaken b e m h⟩
    · next h => exact ⟨_, rfl, .brflFallsThrough b e m (by simpa using h)⟩
  | nop => exact ⟨_, rfl, .nop⟩

/-- The inversion of an instruction: what its next state can be. -/
theorem exec_cases {i : Instr} {s t : Arch p} (h : exec i ⟨p, s⟩ = .next ⟨p, t⟩) : ExecEffect s i t := by
  obtain ⟨u, hu, he⟩ := exec_effect i s
  rw [hu] at h
  cases h
  exact he

/-- An instruction never raises `NONE`. -/
theorem ExecRaises.ne_none {s : Arch p} {i : Instr} {c : Cause} (h : ExecRaises s i c) : c ≠ .none := by
  cases h <;> simp

/-! ## Steps -/

/-- Everything a step can do. -/
inductive StepEffect (s : Arch p) : Arch p → Prop where
  | fetchFault (hs : s.status = .running) (h : fetch s = none) : StepEffect s (s.errorHalt .fetchFault)
  | decodeFailure (hs : s.status = .running) {str : Text} {c : DecodeCause} (hf : fetch s = some str)
      (hd : decode p.xlen str = .error c) : StepEffect s (s.errorHalt (decodeCauseToCause c))
  | execute {i : Instr} {t : Arch p} (hf : Fetches s i) (he : ExecEffect s i t) : StepEffect s t

theorem step_of_not_running {s : State} (h : s.arch.status ≠ .running) : step s = .fault .noStep := by
  unfold step
  cases hs : s.arch.status <;> simp_all

theorem step_of_fetchFault {s : Arch p} (hs : s.status = .running) (h : fetch s = none) :
    step ⟨p, s⟩ = .next ⟨p, s.errorHalt .fetchFault⟩ := by
  simp [step, hs, h]

theorem step_of_decodeFailure {s : Arch p} {str : Text} {c : DecodeCause} (hs : s.status = .running)
    (hf : fetch s = some str) (hd : decode p.xlen str = .error c) :
    step ⟨p, s⟩ = .next ⟨p, s.errorHalt (decodeCauseToCause c)⟩ := by
  simp [step, hs, hf, hd]

theorem step_of_fetches {s : Arch p} {i : Instr} (h : Fetches s i) : step ⟨p, s⟩ = exec i ⟨p, s⟩ := by
  obtain ⟨hs, str, hf, hd⟩ := h
  simp [step, hs, hf, hd]

/-- A RUNNING core's step answers a next state, which is one of the step's effects. -/
theorem step_effect {s : Arch p} (hs : s.status = .running) : ∃ t, step ⟨p, s⟩ = .next ⟨p, t⟩ ∧ StepEffect s t := by
  cases hf : fetch s with
  | none => exact ⟨_, step_of_fetchFault hs hf, .fetchFault hs hf⟩
  | some str =>
    cases hd : decode p.xlen str with
    | error c => exact ⟨_, step_of_decodeFailure hs hf hd, .decodeFailure hs hf hd⟩
    | ok i =>
      have h : Fetches s i := ⟨hs, str, hf, hd⟩
      obtain ⟨t, ht, he⟩ := exec_effect i s
      exact ⟨t, by rw [step_of_fetches h, ht], .execute h he⟩

/-- The inversion of a step: the CORE was RUNNING, and what its next state can be. -/
theorem step_cases {s t : Arch p} (h : step ⟨p, s⟩ = .next ⟨p, t⟩) : s.status = .running ∧ StepEffect s t := by
  by_cases hs : s.status = .running
  · obtain ⟨u, hu, he⟩ := step_effect hs
    rw [hu] at h
    cases h
    exact ⟨hs, he⟩
  · rw [step_of_not_running (s := ⟨p, s⟩) hs] at h
    cases h

/-- A step keeps the parameters. -/
theorem step_params {s : Arch p} {s' : State} (h : step ⟨p, s⟩ = .next s') : ∃ t, s' = ⟨p, t⟩ := by
  by_cases hs : s.status = .running
  · obtain ⟨u, hu, -⟩ := step_effect hs
    rw [hu] at h
    cases h
    exact ⟨u, rfl⟩
  · rw [step_of_not_running (s := ⟨p, s⟩) hs] at h
    cases h

/-- Only one instruction is fetched. -/
theorem Fetches.unique {s : Arch p} {i j : Instr} (hi : Fetches s i) (hj : Fetches s j) : i = j := by
  obtain ⟨-, str, hf, hd⟩ := hi
  obtain ⟨-, str', hf', hd'⟩ := hj
  rw [hf] at hf'
  cases hf'
  rw [hd] at hd'
  cases hd'
  rfl

/-! ## Commands -/

theorem stepCommand_of_not_running {s : State} (h : s.arch.status ≠ .running) : stepCommand s = s := by
  simp [stepCommand, step_of_not_running h]

theorem stepCommand_of_next {s t : State} (h : step s = .next t) : stepCommand s = t := by
  simp [stepCommand, h]

theorem runSteps_of_not_running {s : State} (n : Nat) (h : s.arch.status ≠ .running) : runSteps n s = s := by
  cases n <;> simp [runSteps, h]

theorem run_of_not_running {s : State} (n : Int) (h : s.arch.status ≠ .running) : run n s = (s, .halted) := by
  unfold run
  rw [runSteps_of_not_running _ h]
  simp [h]

/-- What every step keeps, every run keeps, with the parameters. -/
theorem runSteps_induction {P : Arch p → Prop}
    (hstep : ∀ s t, P s → step ⟨p, s⟩ = .next ⟨p, t⟩ → P t) (n : Nat) {s : Arch p} (h : P s) :
    ∃ t, runSteps n ⟨p, s⟩ = ⟨p, t⟩ ∧ P t := by
  induction n generalizing s with
  | zero => exact ⟨s, rfl, h⟩
  | succ n ih =>
    rw [runSteps]
    split
    · next hs =>
      obtain ⟨t, ht, -⟩ := step_effect hs
      rw [stepCommand_of_next ht]
      exact ih (hstep s t h ht)
    · exact ⟨s, rfl, h⟩

end Sys2Proof.Machine
end

