-- ==== Sys2Proof/Laws/Frames.lean ====
section
/-! SUPPORT. The frames of Sys2Proof/Safety.lean for each shared operation, and the plain case of a load. -/

namespace Sys2Proof.Machine

variable {p : Config.Params}

theorem onlyRegisterWritten_writeReg (d : RegIdx) (v : Word p.xlen) (s : Arch p) :
    OnlyRegisterWritten d s (s.writeReg d v).advance :=
  ⟨fun k hk => by simp [readReg_writeReg_other _ _ hk], rfl, rfl, fun _ => rfl, ⟨rfl, rfl⟩, rfl⟩

theorem onlyControlChanged_jump (target : Word p.xlen) (s : Arch p) : OnlyControlChanged s (s.jump target) :=
  ⟨fun _ => rfl, rfl, fun _ => rfl, ⟨rfl, rfl⟩, rfl, rfl⟩

theorem onlyControlChanged_callStack (stack : List (Word p.xlen)) (target : Word p.xlen) (s : Arch p) :
    OnlyControlChanged s (Arch.jump { s with cs := stack } target) :=
  ⟨fun _ => rfl, rfl, fun _ => rfl, ⟨rfl, rfl⟩, rfl, rfl⟩

theorem errorHalted_errorHalt (c : Cause) (s : Arch p) : ErrorHalted c s (s.errorHalt c) :=
  ⟨rfl, rfl, rfl, fun _ => rfl, rfl, rfl, fun _ => rfl, rfl, rfl⟩

theorem normalHalted_normalHalt (c : Cause) (s : Arch p) : NormalHalted c s (s.normalHalt c) :=
  ⟨rfl, rfl, rfl, fun _ => rfl, rfl, rfl, fun _ => rfl, rfl, rfl⟩

/-! ## A load, case by case (R54, R170) -/

variable {r : RegIdx} {off : Int} {b : RegIdx} {s : Arch p} {v : Word p.xlen}

theorem memRead_of_written {a : Word p.xlen} (h : Memory.read s.mem a = some v) : memRead s a = some (v, s) := by
  simp [memRead, h]

theorem execLw_of_written (h : Memory.read s.mem (effectiveAddress s off b) = some v) :
    execLw r off b ⟨p, s⟩ = .next ⟨p, (s.writeReg r v).advance⟩ := by
  simp [execLw, memRead_of_written h]

theorem execLw_of_value (h : Memory.read s.mem (effectiveAddress s off b) = none) (hp : p.unwrittenLoad = .value v) :
    execLw r off b ⟨p, s⟩ = .next ⟨p, (s.writeReg r v).advance⟩ := by
  simp [execLw, memRead, h, hp]

theorem execLw_of_any (h : Memory.read s.mem (effectiveAddress s off b) = none) (hp : p.unwrittenLoad = .any) :
    execLw r off b ⟨p, s⟩ =
      .next ⟨p, (Arch.writeReg { s with draws := s.draws + 1 } r (Config.drawWord p.xlen s.draws)).advance⟩ := by
  simp [execLw, memRead, h, hp]

theorem execLw_of_fault (h : Memory.read s.mem (effectiveAddress s off b) = none) (hp : p.unwrittenLoad = .fault) :
    execLw r off b ⟨p, s⟩ = .next ⟨p, s.errorHalt .memoryFault⟩ := by
  simp [execLw, memRead, h, hp]

end Sys2Proof.Machine
end

