-- ==== Sys2Proof/Laws/Text.lean ====
section
/-! SUPPORT. The small lemmas of the decoder's and the encoder's parts: tokens, decimal digits, numerals. -/

namespace Sys2Proof

/-! ## Tokens -/

/-- No character of `t` is a separator. -/
abbrev NoSeparator (t : Text) : Prop := ∀ c ∈ t, isSeparator c = false

theorem splitFrom_noSeparator {t : Text} (cur : Text) (h : NoSeparator t) :
    splitFrom cur t = if cur ++ t = [] then [] else [cur ++ t] := by
  induction t generalizing cur with
  | nil => simp [splitFrom]
  | cons c t ih =>
    have hc : isSeparator c = false := h c (by simp)
    rw [splitFrom, hc]
    simp [ih (cur ++ [c]) fun d hd => h d (by simp [hd])]

/-- A separator ends a token, and the text after it is split on its own. -/
theorem splitFrom_append_separator (cur a : Text) {c : Char} (b : Text) (hc : isSeparator c = true) :
    splitFrom cur (a ++ c :: b) = splitFrom cur a ++ splitFrom [] b := by
  induction a generalizing cur with
  | nil => by_cases h : cur = [] <;> simp [splitFrom, hc, h]
  | cons d a ih =>
    simp only [List.cons_append, splitFrom]
    split
    · split <;> simp [ih]
    · exact ih _

theorem split_singleton {t : Text} (hn : t ≠ []) (h : NoSeparator t) : split t = [t] := by
  simp [split, splitFrom_noSeparator [] h, hn]

/-- Tokens joined by single spaces split into themselves. -/
theorem split_joinTokens {ts : List Text} (h : ∀ t ∈ ts, t ≠ [] ∧ NoSeparator t) : split (joinTokens ts) = ts := by
  induction ts with
  | nil => rfl
  | cons t ts ih =>
    obtain ⟨hn, hs⟩ := h t (by simp)
    have ht := split_singleton hn hs
    cases ts with
    | nil => exact ht
    | cons u ts =>
      rw [joinTokens, split, splitFrom_append_separator [] t _ (by decide)]
      · rw [split] at ht ih
        rw [ht, ih fun v hv => h v (by simp_all)]
        rfl
      · simp

/-! ## Decimal digits -/

theorem digitsValue_append (ds : Text) (c : Char) : digitsValue (ds ++ [c]) = 10 * digitsValue ds + (c.toNat - 48) := by
  simp [digitsValue]

theorem digitChar_digit : ∀ n < 10, isDigit (digitChar n) = true ∧ (digitChar n).toNat - 48 = n := by decide

theorem decimalDigits_ne_nil (fuel n : Nat) : decimalDigits (fuel + 1) n ≠ [] := by
  rw [decimalDigits]
  split <;> simp

theorem decimalDigits_all (fuel n : Nat) : (decimalDigits fuel n).all isDigit = true := by
  induction fuel generalizing n with
  | zero => rfl
  | succ fuel ih =>
    rw [decimalDigits]
    split
    · next h => simp [(digitChar_digit n h).1]
    · simp [ih, (digitChar_digit (n % 10) (by omega)).1]

theorem decimalDigits_value (fuel n : Nat) (h : n < 10 ^ fuel) : digitsValue (decimalDigits fuel n) = n := by
  induction fuel generalizing n with
  | zero => simp at h; simp [decimalDigits, digitsValue, h]
  | succ fuel ih =>
    rw [decimalDigits]
    split
    · next hn => simp [digitsValue, (digitChar_digit n hn).2]
    · rw [digitsValue_append, ih (n / 10) (by rw [pow_succ] at h; omega), (digitChar_digit (n % 10) (by omega)).2]
      omega

theorem renderNat_ne_nil (n : Nat) : renderNat n ≠ [] := decimalDigits_ne_nil n n

theorem renderNat_all (n : Nat) : (renderNat n).all isDigit = true := decimalDigits_all _ n

theorem renderNat_value (n : Nat) : digitsValue (renderNat n) = n :=
  decimalDigits_value _ n (Nat.lt_trans (Nat.lt_succ_self n) (Nat.lt_pow_self (by norm_num)))

theorem isDigits_renderNat (n : Nat) : isDigits (renderNat n) = true := by
  simp only [isDigits, renderNat_all, Bool.and_true, decide_eq_true_eq]
  exact renderNat_ne_nil n

theorem isDigit_not_sign {c : Char} (h : isDigit c = true) : c ≠ '+' ∧ c ≠ '-' ∧ c ≠ '(' ∧ c ≠ ')' := by
  refine ⟨?_, ?_, ?_, ?_⟩ <;> rintro rfl <;> exact absurd h (by decide)

theorem isDigit_noSeparator {c : Char} (h : isDigit c = true) : isSeparator c = false := by
  simp only [isDigit, Bool.and_eq_true, decide_eq_true_eq] at h
  simp only [isSeparator, Bool.or_eq_false_iff, decide_eq_false_iff_not]
  omega

/-- A run of digits has no sign to drop. -/
theorem dropSign_of_isDigits {t : Text} (h : isDigits t = true) (rest : Text) : dropSign (t ++ rest) = t ++ rest := by
  cases t with
  | nil => simp [isDigits] at h
  | cons c cs =>
    simp only [isDigits, List.all_cons, Bool.and_eq_true] at h
    have hc := isDigit_not_sign h.2.1
    simp [dropSign, hc.1, hc.2.1]

/-! ## Numerals -/

theorem renderInt_ne_nil (v : Int) : renderInt v ≠ [] := by
  rw [renderInt]
  split
  · simp
  · exact renderNat_ne_nil _

theorem dropSign_renderInt (v : Int) (rest : Text) : dropSign (renderInt v ++ rest) = renderNat v.natAbs ++ rest := by
  rw [renderInt]
  split
  · simp [dropSign]
  · exact dropSign_of_isDigits (isDigits_renderNat _) rest

theorem isNumeral_renderInt (v : Int) : isNumeral (renderInt v) = true := by
  have h := dropSign_renderInt v []
  simp only [List.append_nil] at h
  rw [isNumeral, h]
  exact isDigits_renderNat _

theorem head?_renderNat_ne_minus (n : Nat) : (renderNat n).head? ≠ some '-' := by
  have h := renderNat_all n
  cases hr : renderNat n with
  | nil => simp
  | cons c cs =>
    rw [hr, List.all_cons, Bool.and_eq_true] at h
    simp [(isDigit_not_sign h.1).2.1]

theorem numeralValue_renderInt (v : Int) : numeralValue (renderInt v) = v := by
  have hd := dropSign_renderInt v []
  simp only [List.append_nil] at hd
  rw [numeralValue, hd, renderNat_value, renderInt]
  split
  · rw [if_pos (by simp)]
    omega
  · rw [if_neg (head?_renderNat_ne_minus _)]
    omega

/-- The pattern that a value in the range of R80 is held as has that signed value. -/
theorem sval_wrap {n : Nat} (hn : 0 < n) {v : Int} (h : inSignedRange n v) : sval (wrap v : Word n) = v := by
  obtain ⟨h1, h2⟩ := h
  have e : (2 : Int) ^ n = 2 ^ (n - 1) * 2 := by rw [← pow_succ, Nat.sub_add_cancel hn]
  rw [sval, wrap, BitVec.toInt_ofInt]
  apply Int.bmod_eq_of_le <;> push_cast <;> omega

/-! ## Memory operands -/

theorem takeWhile_renderNat_append (n : Nat) (rest : Text) :
    (renderNat n ++ '(' :: rest).takeWhile isDigit = renderNat n := by
  rw [List.takeWhile_append_of_pos fun c hc => List.all_eq_true.mp (renderNat_all n) c hc]
  simp [show isDigit '(' = false by decide]

theorem dropWhile_renderNat_append (n : Nat) (rest : Text) :
    (renderNat n ++ '(' :: rest).dropWhile isDigit = '(' :: rest := by
  rw [List.dropWhile_append_of_pos fun c hc => List.all_eq_true.mp (renderNat_all n) c hc]
  simp [show isDigit '(' = false by decide]

theorem offsetPart_renderMemory (off : Int) (b : RegIdx) :
    offsetPart (renderMemory off b) = renderInt off := by
  rw [offsetPart, renderMemory, dropSign_renderInt, takeWhile_renderNat_append]
  rw [renderInt]
  split
  · simp
  · simp

theorem afterOffset_renderMemory (off : Int) (b : RegIdx) :
    afterOffset (renderMemory off b) = '(' :: (renderRegister b ++ [')']) := by
  rw [afterOffset, renderMemory, dropSign_renderInt, dropWhile_renderNat_append]

theorem basePart_renderMemory (off : Int) (b : RegIdx) : basePart (renderMemory off b) = renderRegister b := by
  rw [basePart, afterOffset_renderMemory]
  simp

end Sys2Proof
end

