-- ==== Sys2Proof/Laws/PerInstr.lean ====
section
/-! SUPPORT. The family `EncodedTokens`: the tokens an instruction is encoded in are a well-formed instruction. -/

namespace Sys2Proof

/-- At every width at which `i` is well-formed, its tokens pass every check of R74 to R82. -/
def Laws.EncodedTokens.Statement (i : Instr) : Prop := ∀ xlen, i.wf xlen = true → tokensWf xlen i.tokens = true

theorem renderRegister_shape : ∀ r : RegIdx,
    isRegisterShape (renderRegister r) = true ∧ isRegisterInRange (renderRegister r) = true := by decide

theorem renderFlagLiteral_shape : ∀ l : FlagLiteral, isFlagLiteral (renderFlagLiteral l) = true := by decide

theorem renderRegister_passes (xlen : Nat) (r : RegIdx) :
    OperandKind.register.failure xlen (renderRegister r) = none := by
  simp [OperandKind.failure, renderRegister_shape]

theorem renderFlagLiteral_passes (xlen : Nat) (l : FlagLiteral) :
    OperandKind.flagLiteral.failure xlen (renderFlagLiteral l) = none := by
  simp [OperandKind.failure, renderFlagLiteral_shape]

theorem isNumeralInRange_renderInt {xlen : Nat} {off : Int} (h : inSignedRange xlen off) :
    isNumeralInRange xlen (renderInt off) = true := by
  simpa only [isNumeralInRange, numeralValue_renderInt, decide_eq_true_eq] using h

theorem renderImmediate_passes {xlen : Nat} {off : Int} (h : inSignedRange xlen off) :
    OperandKind.immediate.failure xlen (renderInt off) = none := by
  simp [OperandKind.failure, isNumeral_renderInt, isNumeralInRange_renderInt h]

theorem renderMemory_passes {xlen : Nat} {off : Int} (b : RegIdx) (h : inSignedRange xlen off) :
    OperandKind.memory.failure xlen (renderMemory off b) = none := by
  simp [OperandKind.failure, isMemoryShape, offsetPart_renderMemory, afterOffset_renderMemory, basePart_renderMemory,
    isNumeral_renderInt, isNumeralInRange_renderInt h, renderRegister_shape]

theorem ofToken?_token : ∀ o : Opcode, Opcode.ofToken? o.token = some o := by
  intro o
  cases o <;> decide

/-- The opcode token is read back, so only the operands remain to be checked. -/
theorem tokensWf_tokens {xlen : Nat} {i : Instr} (h : operandsWf xlen i.opcode.format.kinds i.operandTokens = true) :
    tokensWf xlen i.tokens = true := by
  simp [tokensWf, Instr.tokens, ofToken?_token, h]

theorem operandsWf_RR (xlen : Nat) (d r : RegIdx) :
    operandsWf xlen Format.RR.kinds [renderRegister d, renderRegister r] = true := by
  simp [Format.kinds, operandsWf, renderRegister_passes]

theorem operandsWf_RM {xlen : Nat} (t : RegIdx) {off : Int} (b : RegIdx) (h : inSignedRange xlen off) :
    operandsWf xlen Format.RM.kinds [renderRegister t, renderMemory off b] = true := by
  simp [Format.kinds, operandsWf, renderRegister_passes, renderMemory_passes b h]

theorem operandsWf_R (xlen : Nat) (b : RegIdx) : operandsWf xlen Format.R.kinds [renderRegister b] = true := by
  simp [Format.kinds, operandsWf, renderRegister_passes]

theorem Laws.EncodedTokens.mov (d r : RegIdx) : Laws.EncodedTokens.Statement (.mov d r) :=
  fun xlen _ => tokensWf_tokens (operandsWf_RR xlen d r)

theorem Laws.EncodedTokens.add (d r : RegIdx) : Laws.EncodedTokens.Statement (.add d r) :=
  fun xlen _ => tokensWf_tokens (operandsWf_RR xlen d r)

theorem Laws.EncodedTokens.sub (d r : RegIdx) : Laws.EncodedTokens.Statement (.sub d r) :=
  fun xlen _ => tokensWf_tokens (operandsWf_RR xlen d r)

theorem Laws.EncodedTokens.mul (d r : RegIdx) : Laws.EncodedTokens.Statement (.mul d r) :=
  fun xlen _ => tokensWf_tokens (operandsWf_RR xlen d r)

theorem Laws.EncodedTokens.div (d r : RegIdx) : Laws.EncodedTokens.Statement (.div d r) :=
  fun xlen _ => tokensWf_tokens (operandsWf_RR xlen d r)

theorem Laws.EncodedTokens.and (d r : RegIdx) : Laws.EncodedTokens.Statement (.and d r) :=
  fun xlen _ => tokensWf_tokens (operandsWf_RR xlen d r)

theorem Laws.EncodedTokens.or (d r : RegIdx) : Laws.EncodedTokens.Statement (.or d r) :=
  fun xlen _ => tokensWf_tokens (operandsWf_RR xlen d r)

theorem Laws.EncodedTokens.not (d r : RegIdx) : Laws.EncodedTokens.Statement (.not d r) :=
  fun xlen _ => tokensWf_tokens (operandsWf_RR xlen d r)

theorem Laws.EncodedTokens.shl (d r : RegIdx) : Laws.EncodedTokens.Statement (.shl d r) :=
  fun xlen _ => tokensWf_tokens (operandsWf_RR xlen d r)

theorem Laws.EncodedTokens.shr (d r : RegIdx) : Laws.EncodedTokens.Statement (.shr d r) :=
  fun xlen _ => tokensWf_tokens (operandsWf_RR xlen d r)

theorem Laws.EncodedTokens.cmp (a b : RegIdx) : Laws.EncodedTokens.Statement (.cmp a b) :=
  fun xlen _ => tokensWf_tokens (operandsWf_RR xlen a b)

theorem Laws.EncodedTokens.lw (t : RegIdx) (off : Int) (b : RegIdx) : Laws.EncodedTokens.Statement (.lw t off b) :=
  fun _ h => tokensWf_tokens (operandsWf_RM t b (of_decide_eq_true h))

theorem Laws.EncodedTokens.sw (t : RegIdx) (off : Int) (b : RegIdx) : Laws.EncodedTokens.Statement (.sw t off b) :=
  fun _ h => tokensWf_tokens (operandsWf_RM t b (of_decide_eq_true h))

theorem Laws.EncodedTokens.jpc (off : Int) : Laws.EncodedTokens.Statement (.jpc off) :=
  fun _ h => tokensWf_tokens (by
    simp [Instr.opcode, Opcode.format, Format.kinds, Instr.operandTokens, operandsWf,
      renderImmediate_passes (of_decide_eq_true h)])

theorem Laws.EncodedTokens.jr (b : RegIdx) : Laws.EncodedTokens.Statement (.jr b) :=
  fun xlen _ => tokensWf_tokens (operandsWf_R xlen b)

theorem Laws.EncodedTokens.call (b : RegIdx) : Laws.EncodedTokens.Statement (.call b) :=
  fun xlen _ => tokensWf_tokens (operandsWf_R xlen b)

theorem Laws.EncodedTokens.ret : Laws.EncodedTokens.Statement .ret := fun _ _ => tokensWf_tokens rfl

theorem Laws.EncodedTokens.brfl (b : RegIdx) (e m : FlagLiteral) : Laws.EncodedTokens.Statement (.brfl b e m) :=
  fun xlen _ => tokensWf_tokens (by
    simp [Instr.opcode, Opcode.format, Format.kinds, Instr.operandTokens, operandsWf, renderRegister_passes,
      renderFlagLiteral_passes])

theorem Laws.EncodedTokens.nop : Laws.EncodedTokens.Statement .nop := fun _ _ => tokensWf_tokens rfl

end Sys2Proof
end

