-- ==== Sys2Proof/Tests/Slice0.lean ====
section
/-! SUPPORT. Tests: the well-formedness checks, decoding, one or two single steps of each instruction (the expected
values are those of spec/95_test_vectors.md, or worked out by hand from the rule named), and for each obligation with
hypotheses a concrete state and operands that meet them. -/

namespace Sys2Proof.Tests

open Sys2Proof Sys2Proof.Machine

/-! ## Helpers -/

/-- The parameters the test vectors take (`XLEN = 32`), with these for the others. -/
def params (retEmptyIsError : Bool) (unwrittenLoad : Config.UnwrittenLoad 32) (csDepth : Option Nat) : Config.Params :=
  { Config.specParams with retEmptyIsError := retEmptyIsError, unwrittenLoad := unwrittenLoad, csDepth := csDepth }

/-- The machine of `p` after power-on, with these registers and this program. -/
def machineOf (p : Config.Params) (regs : List (RegIdx × Word p.xlen)) (prog : List String := []) : Arch p :=
  regs.foldl (fun s r => s.writeReg r.1 r.2) { Arch.powerOn p with prog := prog.map String.toList }

/-- The machine of the spec's parameters, with these registers and this program. -/
def machine (regs : List (RegIdx × Word 32)) (prog : List String := []) : Arch Config.specParams :=
  machineOf Config.specParams regs prog

/-- The unsigned value of a register of a state. -/
def reg (t : State) (k : RegIdx) : Nat := uval (t.arch.readReg k)

/-- The unsigned value of the pc of a state. -/
def pcOf (t : State) : Nat := uval t.arch.pc

/-- The outcome is a next state of which `p` holds. -/
def nextIs (r : Result) (p : State → Bool) : Bool :=
  match r with
  | .next t => p t
  | .fault _ => false
  | .refused _ => false

/-- The string decodes to `i`. -/
def decodesTo (str : String) (i : Instr) : Bool :=
  match decode 32 str.toList with
  | .ok j => decide (j = i)
  | .error _ => false

/-- The string raises `c`. -/
def raises (str : String) (c : DecodeCause) : Bool :=
  match decode 32 str.toList with
  | .ok _ => false
  | .error d => decide (d = c)

/-- The flags of a packed value. -/
def flagsOf (b : BitVec 7) : Flags :=
  ⟨b.getLsbD 6, b.getLsbD 5, b.getLsbD 4, b.getLsbD 3, b.getLsbD 2, b.getLsbD 1, b.getLsbD 0⟩

/-- The token list passes the checks of Sys2Proof/WellFormed.lean. -/
def wellFormed (tokens : List String) : Bool := tokensWf 32 (tokens.map String.toList)

/-! ## WellFormed smoke test: each check refuses an ill-formed term -/

theorem test_wf_accepts : wellFormed ["LW", "R31", "-2147483648(R0)"] = true := by decide
theorem test_wf_no_token : wellFormed [] = false := by decide
theorem test_wf_mnemonic : wellFormed ["add", "R1", "R2"] = false := by decide
theorem test_wf_operand_missing : wellFormed ["ADD", "R1"] = false := by decide
theorem test_wf_operand_extra : wellFormed ["RET", "R1"] = false := by decide
theorem test_wf_register_shape : wellFormed ["ADD", "R1,", "R2"] = false := by decide
theorem test_wf_register_range : wellFormed ["ADD", "R32", "R2"] = false := by decide
theorem test_wf_numeral_shape : wellFormed ["JPC", "0x10"] = false := by decide
theorem test_wf_immediate_above : wellFormed ["JPC", "2147483648"] = false := by decide
theorem test_wf_immediate_below : wellFormed ["JPC", "-2147483649"] = false := by decide
theorem test_wf_memory_shape : wellFormed ["LW", "R1", "9((R2)"] = false := by decide
theorem test_wf_memory_no_offset : wellFormed ["LW", "R1", "(R3)"] = false := by decide
theorem test_wf_offset_range : wellFormed ["SW", "R1", "2147483648(R3)"] = false := by decide
theorem test_wf_base_range : wellFormed ["SW", "R1", "0(R32)"] = false := by decide
theorem test_wf_literal_length : wellFormed ["BRFL", "R5", "001000", "0010000"] = false := by decide
theorem test_wf_literal_digit : wellFormed ["BRFL", "R5", "0010000", "0010002"] = false := by decide

theorem test_wf_instruction_in_range : (Instr.jpc 127).wf 8 = true := by decide
theorem test_wf_instruction_offset_above : (Instr.lw 1 128 2).wf 8 = false := by decide
theorem test_wf_instruction_offset_below : (Instr.sw 1 (-129) 2).wf 8 = false := by decide

/-! ## Decoding: texts written out from R81, R85 and spec/95_test_vectors.md, section 2 -/

theorem test_decode_mov : decodesTo "MOV R2 R1" (.mov 2 1) = true := by decide
theorem test_decode_add : decodesTo "  ADD   R07\tR1  " (.add 7 1) = true := by decide
theorem test_decode_sub : decodesTo "SUB R1 R2" (.sub 1 2) = true := by decide
theorem test_decode_mul : decodesTo "MUL R31 R0" (.mul 31 0) = true := by decide
theorem test_decode_div : decodesTo "DIV R1 R2" (.div 1 2) = true := by decide
theorem test_decode_and : decodesTo "AND R1 R2" (.and 1 2) = true := by decide
theorem test_decode_or : decodesTo "OR R1 R2" (.or 1 2) = true := by decide
theorem test_decode_not : decodesTo "NOT R1 R2" (.not 1 2) = true := by decide
theorem test_decode_shl : decodesTo "SHL R1 R2" (.shl 1 2) = true := by decide
theorem test_decode_shr : decodesTo "SHR R1 R2" (.shr 1 2) = true := by decide
theorem test_decode_cmp : decodesTo "CMP R0 R31" (.cmp 0 31) = true := by decide
theorem test_decode_lw : decodesTo "LW R1 -4(R10)" (.lw 1 (-4) 10) = true := by decide
theorem test_decode_sw : decodesTo "SW R1 +4(R10)" (.sw 1 4 10) = true := by decide
theorem test_decode_jpc : decodesTo "JPC -2147483648" (.jpc (-2147483648)) = true := by decide
theorem test_decode_jr : decodesTo "JR R6" (.jr 6) = true := by decide
theorem test_decode_call : decodesTo "CALL R7" (.call 7) = true := by decide
theorem test_decode_ret : decodesTo "RET" .ret = true := by decide
theorem test_decode_brfl : decodesTo "BRFL R5 1000000 0000001" (.brfl 5 64#7 1#7) = true := by decide
theorem test_decode_nop : decodesTo "NOP" .nop = true := by decide
theorem test_decode_empty : raises "   \t  " .malformedInstruction = true := by decide
theorem test_decode_unknown : raises "FOO R99" .unknownOpcode = true := by decide
theorem test_decode_left_to_right : raises "ADD R99 X" .outOfRangeRegister = true := by decide
theorem test_decode_left_to_right_shape : raises "ADD X R99" .malformedInstruction = true := by decide
theorem test_decode_offset_first : raises "LW R1 4294967296(R32)" .malformedInstruction = true := by decide

/-- "NOP" packed with its first character in bits 7..0 (log entry 10). -/
theorem test_decode_packed_text : decodeTableWord 24 0x504F4E = some .nop := by decide

/-- The packed "NOP" is what the next step runs. -/
theorem test_fetch_packed_text : nextIs (step (State.reset.withFetchWord 24 0x504F4E)) (fun t => pcOf t = 1) = true := by
  decide

/-! ## Single steps -/

theorem test_mov : nextIs (exec (.mov 1 2) ⟨_, machine [(1, 5), (2, 1)]⟩) (fun t =>
    reg t 1 = 1 && reg t 2 = 1 && pcOf t = 1) = true := by decide
theorem test_add_wraps : nextIs (exec (.add 1 2) ⟨_, machine [(1, 0x7FFFFFFF#32), (2, 1)]⟩) (fun t =>
    reg t 1 = 0x80000000 && t.arch.flags.pack = 0) = true := by decide
theorem test_add_to_itself : nextIs (exec (.add 1 1) ⟨_, machine [(1, 0x40000000#32)]⟩) (fun t =>
    reg t 1 = 0x80000000) = true := by decide
theorem test_sub_negative : nextIs (exec (.sub 1 2) ⟨_, machine [(1, 3), (2, 5)]⟩) (fun t =>
    reg t 1 = 0xFFFFFFFE && reg t 2 = 5) = true := by decide
theorem test_sub_wraps_at_8_bits : nextIs
    (exec (.sub 1 2) ⟨_, machineOf ⟨32, rfl, 7, rfl, 8, by decide, false, .any, none⟩ [(1, 0x80), (2, 1)]⟩) (fun t =>
    reg t 1 = 0x7F) = true := by decide
theorem test_mul_wraps : nextIs (exec (.mul 1 2) ⟨_, machine [(1, 0xB505#32), (2, 0xB505#32)]⟩) (fun t =>
    reg t 1 = 0x80001219) = true := by decide
theorem test_div_floors : nextIs (exec (.div 1 2) ⟨_, machine [(1, 0xFFFFFFF9#32), (2, 2)]⟩) (fun t =>
    reg t 1 = 0xFFFFFFFC) = true := by decide
theorem test_div_by_zero : nextIs (exec (.div 1 2) ⟨_, machine [(1, 5)]⟩) (fun t =>
    reg t 1 = 5 && t.arch.flags.pack = 1 && pcOf t = 0 && t.arch.statusView = 22) = true := by decide
theorem test_and : nextIs (exec (.and 1 2) ⟨_, machine [(1, 0xC#32), (2, 0xA#32)]⟩) (fun t =>
    reg t 1 = 8) = true := by decide
theorem test_or : nextIs (exec (.or 1 2) ⟨_, machine [(1, 0xC#32), (2, 0xA#32)]⟩) (fun t =>
    reg t 1 = 0xE) = true := by decide
theorem test_not_reads_source : nextIs (exec (.not 1 2) ⟨_, machine [(1, 0x4D#32), (2, 0x80000000#32)]⟩) (fun t =>
    reg t 1 = 0x7FFFFFFF) = true := by decide
theorem test_shl_by_31 : nextIs (exec (.shl 1 2) ⟨_, machine [(1, 1), (2, 31)]⟩) (fun t =>
    reg t 1 = 0x80000000) = true := by decide
theorem test_shl_by_negative : nextIs (exec (.shl 1 2) ⟨_, machine [(1, 5), (2, 0xFFFFFFFF#32)]⟩) (fun t =>
    reg t 1 = 5 && t.arch.flags.pack = 1 && t.arch.statusView = 86) = true := by decide
theorem test_shr_replicates_sign : nextIs (exec (.shr 1 2) ⟨_, machine [(1, 0xFFFFFFFB#32), (2, 1)]⟩) (fun t =>
    reg t 1 = 0xFFFFFFFD) = true := by decide
theorem test_shr_by_40 : nextIs (exec (.shr 1 2) ⟨_, machine [(1, 0xFFFFFFFF#32), (2, 40)]⟩) (fun t =>
    reg t 1 = 0xFFFFFFFF) = true := by decide
theorem test_cmp_is_signed : nextIs (exec (.cmp 1 2) ⟨_, machine [(1, 0x80000000#32), (2, 0x7FFFFFFF#32)]⟩) (fun t =>
    t.arch.flags.pack = 0b0001000#7) = true := by decide
theorem test_cmp_is_sticky : nextIs
    (exec (.cmp 1 2) ⟨_, { machine [(1, 5), (2, 3)] with flags := flagsOf 0b0001000#7 }⟩) (fun t =>
    t.arch.flags.pack = 0b0101000#7) = true := by decide
theorem test_lw : nextIs (exec (.lw 4 0 4) ⟨_, { machine [(4, 20)] with mem := [(20, 0xFFFFFFFD#32)] }⟩) (fun t =>
    reg t 4 = 0xFFFFFFFD && pcOf t = 1) = true := by decide
theorem test_lw_unwritten_fault : nextIs
    (exec (.lw 1 0 2) ⟨_, machineOf (params false .fault none) []⟩) (fun t =>
    t.arch.statusView = 30 && t.arch.flags.pack = 1 && pcOf t = 0) = true := by decide
theorem test_sw : nextIs (exec (.sw 1 (-4) 10) ⟨_, machine [(1, 28), (10, 104)]⟩) (fun t =>
    t.arch.mem = [(100, 28)] && pcOf t = 1) = true := by decide
theorem test_sw_wraps : nextIs (exec (.sw 1 (-1) 0) ⟨_, machine [(1, 9)]⟩) (fun t =>
    t.arch.mem = [(0xFFFFFFFF, 9)]) = true := by decide
theorem test_jpc_backwards : nextIs (exec (.jpc (-1)) State.reset) (fun t =>
    pcOf t = 0xFFFFFFFF) = true := by decide
theorem test_jr : nextIs (exec (.jr 6) ⟨_, machine [(6, 9)]⟩) (fun t => pcOf t = 9) = true := by decide
theorem test_call : nextIs (exec (.call 7) ⟨_, { machine [(7, 5)] with pc := 3, cs := [1] }⟩) (fun t =>
    pcOf t = 5 && t.arch.cs = [1, 3]) = true := by decide
theorem test_call_overflow : nextIs
    (exec (.call 7) ⟨_, { machineOf (params false .any (some 1)) [(7, 5)] with cs := [1] }⟩) (fun t =>
    pcOf t = 0 && t.arch.cs = [1] && t.arch.statusView = 34) = true := by decide
theorem test_ret : nextIs (exec .ret ⟨_, { machine [] with cs := [1, 3] }⟩) (fun t =>
    pcOf t = 4 && t.arch.cs = [1]) = true := by decide
theorem test_ret_empty : nextIs (exec .ret State.reset) (fun t =>
    pcOf t = 0 && t.arch.statusView = 5 && t.arch.flags.pack = 0) = true := by decide
theorem test_brfl_taken : nextIs
    (exec (.brfl 5 0b0010000#7 0b0010000#7) ⟨_, { machine [(5, 99)] with flags := flagsOf 0b0011000#7 }⟩) (fun t =>
    pcOf t = 99) = true := by decide
theorem test_brfl_not_taken : nextIs
    (exec (.brfl 5 0b1100000#7 0b1100000#7) ⟨_, { machine [(5, 99)] with flags := flagsOf 0b0100000#7 }⟩) (fun t =>
    pcOf t = 1) = true := by decide
theorem test_nop : nextIs (exec .nop State.reset) (fun t => pcOf t = 1) = true := by decide
theorem test_fetch_fault : nextIs (step State.reset) (fun t => pcOf t = 0 && t.arch.statusView = 26) = true := by decide

/-! ## Memory keeps one canonical form -/

theorem test_memory_order : Memory.write (Memory.write ([] : Memory 32) 9 1) 3 2 = [(3, 2), (9, 1)] := by decide
theorem test_memory_overwrite : Memory.write ([(3, 2), (9, 1)] : Memory 32) 9 7 = [(3, 2), (9, 7)] := by decide
theorem test_memory_clear : Memory.clear ([(3, 2), (9, 1)] : Memory 32) 3 = [(9, 1)] := by decide
theorem test_memory_not_canonical : Memory.wf ([(9, 1), (3, 2)] : Memory 32) = false := by decide

/-! ## Witnesses: text -/

theorem witness_DecodeOfEncodeIsTheInstruction_least : (Instr.jpc (-2147483648)).wf 32 = true := by decide
theorem witness_DecodeOfEncodeIsTheInstruction_greatest : (Instr.lw 31 2147483647 0).wf 32 = true := by decide
theorem witness_DecodeChecksInOrder_noToken : TextFails 32 " ".toList .malformedInstruction := .noToken (by decide)
theorem witness_DecodeChecksInOrder_notMnemonic : TextFails 32 "HALT".toList .unknownOpcode :=
  .notMnemonic (op := "HALT".toList) (ops := []) (by decide) (by intro o; cases o <;> decide)
theorem witness_DecodeChecksInOrder_wrongCount : TextFails 32 "ADD R99".toList .malformedInstruction :=
  .wrongCount (o := .add) (ops := ["R99".toList]) (by decide) (by decide)
/-- The second operand is the first that fails. -/
theorem witness_DecodeChecksInOrder_operand : TextFails 32 "LW R1 0(R32)".toList .outOfRangeRegister :=
  .operand (o := .lw) (ops := ["R1".toList, "0(R32)".toList]) (j := 1) (k := .memory) (t := "0(R32)".toList)
    (by decide) (by decide) rfl rfl (by decide) fun i hi k' t' hk ht => by
      obtain rfl : i = 0 := by omega
      cases hk
      cases ht
      decide
theorem witness_DecodeChecksInOrder_spells : SpellsOperands 32 ["R07".toList, "+4(R1)".toList] (.lw 7 4 1) :=
  ⟨"R07".toList, "+4".toList, "R1".toList, by decide, ⟨by decide, by decide⟩, ⟨by decide, by decide, by decide⟩,
    by decide, by decide⟩

theorem witness_TokensAreMaximalSeparatorFreeRuns_token : "NOP".toList ∈ split "\tNOP ".toList := by decide
theorem witness_TokensAreMaximalSeparatorFreeRuns_run :
    "R1,".toList ≠ [] ∧
      "R1,".toList.all (fun c => decide (c.toNat ∉ [0x20, 0x09, 0x0A, 0x0B, 0x0C, 0x0D])) = true := by decide
theorem witness_TokensAreMaximalSeparatorFreeRuns_separator :
    '\r'.toNat ∈ [0x20, 0x09, 0x0A, 0x0B, 0x0C, 0x0D] := by decide
theorem witness_NoTokenOrWrongCountIsMalformed_none : split " \t".toList = [] := by decide
theorem witness_NoTokenOrWrongCountIsMalformed_count :
    split "BRFL R1 0000000".toList = "BRFL".toList :: ["R1".toList, "0000000".toList] ∧
      "BRFL".toList = Opcode.brfl.token ∧ ["R1".toList, "0000000".toList].length ≠ 3 := by decide
theorem witness_RegisterTokenIsReadByItsDigits_in :
    isRegisterShape "R031".toList = true ∧ digitsValue "R031".toList.tail = (31 : RegIdx).val := by decide
theorem witness_RegisterTokenIsReadByItsDigits_above :
    isRegisterShape "R32".toList = true ∧ 31 < digitsValue "R32".toList.tail := by decide
theorem witness_RegisterTokenIsReadByItsDigits_shape : isRegisterShape "r1".toList = false := by decide
theorem witness_ImmediateTokenIsReadInRange_least :
    isNumeral "-2147483648".toList = true ∧ -2 ^ (Config.specParams.xlen - 1) ≤ numeralValue "-2147483648".toList ∧
      numeralValue "-2147483648".toList ≤ 2 ^ (Config.specParams.xlen - 1) - 1 := by decide
theorem witness_ImmediateTokenIsReadInRange_greatest :
    isNumeral "+2147483647".toList = true ∧ -2 ^ (Config.specParams.xlen - 1) ≤ numeralValue "+2147483647".toList ∧
      numeralValue "+2147483647".toList ≤ 2 ^ (Config.specParams.xlen - 1) - 1 := by decide
theorem witness_ImmediateTokenIsReadInRange_below : numeralValue "-2147483649".toList < -2 ^ (Config.specParams.xlen - 1) := by decide
theorem witness_ImmediateTokenIsReadInRange_above : 2 ^ (Config.specParams.xlen - 1) - 1 < numeralValue "2147483648".toList := by decide
theorem witness_ImmediateTokenIsReadInRange_shape : isNumeral "+".toList = false := by decide
theorem witness_MemoryTokenChecksOffsetThenBase_offset :
    isNumeral "2147483648".toList = true ∧ isRegisterShape "R32".toList = true ∧
      ¬ inSignedRange 32 (numeralValue "2147483648".toList) := by decide
theorem witness_MemoryTokenChecksOffsetThenBase_base :
    isNumeral "2147483647".toList = true ∧ isRegisterShape "R32".toList = true ∧
      inSignedRange 32 (numeralValue "2147483647".toList) ∧ 31 < digitsValue "R32".toList.tail := by decide
theorem witness_MemoryTokenChecksOffsetThenBase_in :
    isNumeral "-2147483648".toList = true ∧ isRegisterShape "R31".toList = true ∧
      inSignedRange 32 (numeralValue "-2147483648".toList) ∧
      digitsValue "R31".toList.tail = (31 : RegIdx).val := by decide
theorem witness_MemoryTokenChecksOffsetThenBase_shape :
    ¬ ∃ n r : Text, [] = n ++ '(' :: (r ++ [')']) ∧ isNumeral n = true ∧ isRegisterShape r = true := by simp
theorem witness_FlagLiteralIsReadLeftToRight_in :
    "1000001".toList.length = 7 ∧ "1000001".toList.all (fun c => decide (c = '0' ∨ c = '1')) = true := by decide
theorem witness_FlagLiteralIsReadLeftToRight_length : ¬ ("10000010".toList.length = 7) := by decide
theorem witness_NonAsciiTextNeverDecodes : decode 32 "NOP".toList = .ok .nop ∧ 'N' ∈ "NOP".toList := ⟨rfl, by decide⟩

/-! ## Witnesses: the step and the run -/

theorem witness_StepRunsTheDecodedInstruction : Fetches (machine [] ["ADD R1 R2"]) (.add 1 2) := ⟨rfl, _, rfl, rfl⟩
theorem witness_RunningStepAnswersNext : (machine []).status = .running := rfl
theorem witness_HaltedCoreHasNoTransition :
    ((machine []).errorHalt .fetchFault).status ≠ .running ∧
      ((machine []).normalHalt .retEmptyStack).status ≠ .running := by decide
theorem witness_FetchFaultsExactlyOutsideTheProgram_last :
    uval { machine [] ["NOP", "RET"] with pc := 1 }.pc < (machine [] ["NOP", "RET"]).prog.length := by decide
theorem witness_FetchFaultsExactlyOutsideTheProgram_past :
    { machine [] ["NOP", "RET"] with pc := 2 }.status = .running ∧
      (machine [] ["NOP", "RET"]).prog.length ≤ uval { machine [] ["NOP", "RET"] with pc := 2 }.pc := by decide
theorem witness_FetchFaultsExactlyOutsideTheProgram_negative :
    { machine [] ["NOP"] with pc := 0x80000000#32 }.status = .running ∧
      (machine [] ["NOP"]).prog.length ≤ 2 ^ (Config.specParams.xlen - 1) ∧
      sval { machine [] ["NOP"] with pc := 0x80000000#32 }.pc < 0 := by decide
theorem witness_DecodeFailureOnlyHalts_malformed :
    (machine [] [""]).status = .running ∧ fetch (machine [] [""]) = some [] ∧
      decode 32 [] = .error .malformedInstruction := ⟨rfl, rfl, rfl⟩
theorem witness_DecodeFailureOnlyHalts_unknown :
    (machine [] ["HALT"]).status = .running ∧ fetch (machine [] ["HALT"]) = some "HALT".toList ∧
      decode 32 "HALT".toList = .error .unknownOpcode := ⟨rfl, rfl, rfl⟩
theorem witness_DecodeFailureOnlyHalts_register :
    (machine [] ["JR R32"]).status = .running ∧ fetch (machine [] ["JR R32"]) = some "JR R32".toList ∧
      decode 32 "JR R32".toList = .error .outOfRangeRegister := ⟨rfl, rfl, rfl⟩
theorem witness_StraightStepsAdvancePcByTheirNumber :
    ∃ t, StraightSteps 2 (machine [] ["NOP", "CMP R1 R2"]) t :=
  ⟨_, .nop, _, ⟨rfl, _, rfl, rfl⟩, by simp [IsStraightLine, Instr.opcode], rfl, rfl,
    .cmp 1 2, _, ⟨rfl, _, rfl, rfl⟩, by simp [IsStraightLine, Instr.opcode], rfl, rfl, rfl⟩
theorem witness_RunStopsAtHaltOrBudget_none : (0 : Int) ≤ 0 ∧ (-1 : Int) ≤ 0 := by decide
theorem witness_RunStopsAtHaltOrBudget_halted : ((machine []).normalHalt .retEmptyStack).status ≠ .running := by decide
theorem witness_RunStopsAtHaltOrBudget_step : (0 : Int) < 1 ∧ ∃ t, step ⟨_, machine [] ["NOP"]⟩ = .next ⟨Config.specParams, t⟩ :=
  ⟨by decide, _, rfl⟩
theorem witness_ConsecutiveRunsAreOneRun : (0 : Int) ≤ 0 ∧ (0 : Int) ≤ 1 := by decide
theorem witness_RunEndsInAtMostOneState :
    ∃ t u, EndsIn ⟨_, machine [] ["NOP", "RET"]⟩ t ∧ EndsIn ⟨_, machine [] ["NOP", "RET"]⟩ u :=
  ⟨_, _, ⟨2, rfl, by decide⟩, ⟨3, rfl, by decide⟩⟩

/-! ## Witnesses: halts -/

theorem witness_HaltsArePrecise : ∃ t, step ⟨_, machine [] ["DIV R1 R0"]⟩ = .next ⟨Config.specParams, t⟩ ∧ t.status ≠ .running :=
  ⟨_, rfl, by decide⟩
theorem witness_NormalHaltOnlyByReturnOnEmptyStack :
    (machine [] ["RET"]).cause = .none ∧ ∃ t, step ⟨_, machine [] ["RET"]⟩ = .next ⟨Config.specParams, t⟩ ∧ t.status = .haltedNormal :=
  ⟨rfl, _, rfl, rfl⟩
theorem witness_NormalHaltOnlyByReturnOnEmptyStack_error :
    (machine []).cause = .none ∧ ∃ t, step ⟨_, machine []⟩ = .next ⟨Config.specParams, t⟩ ∧ t.cause ≠ .none ∧ t.cause ≠ .retEmptyStack :=
  ⟨rfl, _, rfl, by decide, by decide⟩

/-- Some step from a state without a cause reports `c`. -/
def Reported (c : Cause) : Prop :=
  ∃ (p : Config.Params) (s t : Arch p), s.cause = .none ∧ step ⟨p, s⟩ = .next ⟨p, t⟩ ∧ t.cause = c

theorem witness_CausesAreReportedByTheirRaisers_none : Reported .none := ⟨_, machine [] ["NOP"], _, rfl, rfl, rfl⟩
theorem witness_CausesAreReportedByTheirRaisers_ret : Reported .retEmptyStack :=
  ⟨_, machine [] ["RET"], _, rfl, rfl, rfl⟩
theorem witness_CausesAreReportedByTheirRaisers_unknown : Reported .unknownOpcode :=
  ⟨_, machine [] ["nop"], _, rfl, rfl, rfl⟩
theorem witness_CausesAreReportedByTheirRaisers_malformed : Reported .malformedInstruction :=
  ⟨_, machine [] ["MOV R1 5"], _, rfl, rfl, rfl⟩
theorem witness_CausesAreReportedByTheirRaisers_register : Reported .outOfRangeRegister :=
  ⟨_, machine [] ["MOV R32 R0"], _, rfl, rfl, rfl⟩
theorem witness_CausesAreReportedByTheirRaisers_divZero : Reported (.arithmeticFault .divZero) :=
  ⟨_, machine [] ["DIV R1 R0"], _, rfl, rfl, rfl⟩
theorem witness_CausesAreReportedByTheirRaisers_negShift :
    Reported (.arithmeticFault .negShift) := ⟨_, machine [(2, 0xFFFFFFFF#32)] ["SHR R1 R2"], _, rfl, rfl, rfl⟩
theorem witness_CausesAreReportedByTheirRaisers_fetch : Reported .fetchFault := ⟨_, machine [], _, rfl, rfl, rfl⟩
theorem witness_CausesAreReportedByTheirRaisers_memory : Reported .memoryFault :=
  ⟨_, machineOf (params false .fault none) [] ["LW R1 0(R0)"], _, rfl, rfl, rfl⟩
theorem witness_CausesAreReportedByTheirRaisers_overflow : Reported .callStackOverflow :=
  ⟨_, machineOf (params false .any (some 0)) [] ["CALL R0"], _, rfl, rfl, rfl⟩

/-! ## Witnesses: instructions -/

theorem witness_DivWritesTheFloorQuotient_positive :
    sval ((machine [(2, 1)]).readReg 2) ≠ 0 ∧ 0 < sval ((machine [(2, 1)]).readReg 2) := by decide
theorem witness_DivWritesTheFloorQuotient_negative :
    sval ((machine [(2, 0xFFFFFFFF#32)]).readReg 2) ≠ 0 ∧ sval ((machine [(2, 0xFFFFFFFF#32)]).readReg 2) < 0 := by
  decide
theorem witness_DivWritesTheFloorQuotient_zero : (machine []).readReg 2 = 0 := by decide
theorem witness_ShlWritesTheLowBitsOfTheShiftedValue_zero : 0 ≤ sval ((machine []).readReg 2) := by decide
theorem witness_ShlWritesTheLowBitsOfTheShiftedValue_greatest :
    0 ≤ sval ((machine [(2, 0x7FFFFFFF#32)]).readReg 2) := by decide
theorem witness_ShlWritesTheLowBitsOfTheShiftedValue_negative :
    sval ((machine [(2, 0xFFFFFFFF#32)]).readReg 2) < 0 := by decide
theorem witness_ShrWritesTheFloorOfTheShiftedValue_greatest :
    0 ≤ sval ((machine [(31, 0x7FFFFFFF#32)]).readReg 31) := by decide
theorem witness_ShrWritesTheFloorOfTheShiftedValue_negative :
    sval ((machine [(31, 0x80000000#32)]).readReg 31) < 0 := by decide
theorem witness_SubAfterAddRestoresTheRegister : (1 : RegIdx) ≠ 2 ∧ (1 : RegIdx) = 1 := by decide
theorem witness_LoadReturnsTheCellOrFollowsTheParameter_written :
    Memory.read { machine [] with mem := [(0, 7)] }.mem
      (wrap (sval ((machine []).readReg 2) + sval (wrap 0 : Word 32))) = some 7 := by decide
theorem witness_LoadReturnsTheCellOrFollowsTheParameter_value :
    Memory.read (machineOf (params false (.value 5) none) []).mem
      (wrap (sval ((machineOf (params false (.value 5) none) []).readReg 2) + sval (wrap 0 : Word 32))) = none ∧
      (params false (.value 5) none).unwrittenLoad = .value 5 := by decide
theorem witness_LoadReturnsTheCellOrFollowsTheParameter_any :
    Memory.read (machine []).mem (wrap (sval ((machine []).readReg 2) + sval (wrap (-1) : Word 32))) = none ∧
      Config.specParams.unwrittenLoad = .any := by decide
theorem witness_LoadReturnsTheCellOrFollowsTheParameter_fault :
    Memory.read (machineOf (params false .fault none) []).mem
      (wrap (sval ((machineOf (params false .fault none) []).readReg 2) + sval (wrap 0 : Word 32))) = none ∧
      (params false .fault none).unwrittenLoad = .fault := by decide
theorem witness_LoadSeesTheMostRecentStore_second :
    ∃ t u, exec (.sw 1 4 3) ⟨_, machine []⟩ = .next ⟨Config.specParams, t⟩ ∧ exec (.sw 2 4 3) ⟨_, t⟩ = .next ⟨Config.specParams, u⟩ ∧
      effectiveAddress u 4 3 = effectiveAddress t 4 3 := ⟨_, _, rfl, rfl, rfl⟩
theorem witness_LoadSeesTheMostRecentStore_first :
    ∃ t u, exec (.sw 1 4 3) ⟨_, machine []⟩ = .next ⟨Config.specParams, t⟩ ∧ exec (.sw 2 5 3) ⟨_, t⟩ = .next ⟨Config.specParams, u⟩ ∧
      effectiveAddress u 4 3 = effectiveAddress (machine []) 4 3 ∧
      effectiveAddress t 5 3 ≠ effectiveAddress (machine []) 4 3 :=
  ⟨_, _, rfl, rfl, rfl, by decide⟩
theorem witness_CallPushesItsOwnAddress_unbounded : Config.specParams.csDepth ≠ some (machine []).cs.length := by decide
theorem witness_CallPushesItsOwnAddress_full :
    (params false .any (some 1)).csDepth =
      some { machineOf (params false .any (some 1)) [] with cs := [0] }.cs.length := by decide
theorem witness_RetPopsAndReturnsPastTheCall : { machine [] with cs := [1, 3] }.cs = [1] ++ [3] := by decide
theorem witness_RetOnAnEmptyStackHalts_error :
    (machineOf (params true .any none) []).cs = [] ∧ (params true .any none).retEmptyIsError = true := by decide
theorem witness_RetOnAnEmptyStackHalts_normal :
    (machine []).cs = [] ∧ Config.specParams.retEmptyIsError = false := by decide
theorem witness_BrflBranchesOnTheMaskedFlags_taken :
    (machine []).flags.pack &&& 0b1111111#7 = 0b0000000#7 &&& 0b1111111#7 := by decide
theorem witness_BrflBranchesOnTheMaskedFlags_not_taken :
    (machine []).flags.pack &&& 0b1000000#7 ≠ 0b1000000#7 &&& 0b1000000#7 := by decide
theorem witness_BrflBranchesOnTheMaskedFlags_other : (Instr.cmp 1 2).opcode ≠ .brfl := by decide
theorem witness_CallThenRetReturnsPastTheCall :
    Fetches (machine [(7, 1)] ["CALL R7", "RET"]) (.call 7) ∧
      Config.specParams.csDepth ≠ some (machine [(7, 1)] ["CALL R7", "RET"]).cs.length ∧
      (machine [(7, 1)] ["CALL R7", "RET"]).prog[uval ((machine [(7, 1)] ["CALL R7", "RET"]).readReg 7)]? =
        some "RET".toList ∧ decode 32 "RET".toList = .ok .ret :=
  ⟨⟨rfl, _, rfl, rfl⟩, by decide, rfl, rfl⟩

/-! ## Witnesses: the whole machine -/

theorem witness_FlagsAreSetOnlyByCmpAndErrorHalts_cmp :
    ∃ t, step ⟨_, machine [] ["CMP R1 R2"]⟩ = .next ⟨Config.specParams, t⟩ ∧ t.flags.eq ≠ (machine [] ["CMP R1 R2"]).flags.eq :=
  ⟨_, rfl, by decide⟩
theorem witness_FlagsAreSetOnlyByCmpAndErrorHalts_er :
    ∃ t, step ⟨_, machine []⟩ = .next ⟨Config.specParams, t⟩ ∧ t.flags.er ≠ (machine []).flags.er ∧ t.status = .haltedError :=
  ⟨_, rfl, by decide, rfl⟩
theorem witness_FlagsStayUntilReset :
    ∃ s', hostCommand ⟨_, { machine [] ["NOP"] with flags := flagsOf 0b0111000#7 }⟩ (.run 2) = some s' ∧
      (HostCommand.run 2 : HostCommand 32) ≠ .reset := ⟨_, rfl, by decide⟩
theorem witness_ThirtyTwoRegistersAndSevenFlags : 31 < Config.specParams.nreg := by decide
theorem witness_RegistersAreWrittenOnlyAsFirstOperands :
    ∃ t, step ⟨_, machine [(2, 9)] ["MOV R31 R2"]⟩ = .next ⟨Config.specParams, t⟩ ∧
      t.readReg 31 ≠ (machine [(2, 9)] ["MOV R31 R2"]).readReg 31 := ⟨_, rfl, by decide⟩
theorem witness_RegistersAreReadOnlyAsSources_destination : (1 : RegIdx) ∉ sources (.mov 1 2) := by decide
theorem witness_RegistersAreReadOnlyAsSources_other : (31 : RegIdx) ∉ sources (.div 1 2) := by decide
theorem witness_OnlyStoresChangeDataMemory :
    ∃ t, step ⟨_, machine [] ["SW R1 -1(R0)"]⟩ = .next ⟨Config.specParams, t⟩ ∧
      Memory.read t.mem 0xFFFFFFFF#32 ≠ Memory.read (machine [] ["SW R1 -1(R0)"]).mem 0xFFFFFFFF#32 :=
  ⟨_, rfl, by decide⟩
theorem witness_DrawsMatterOnlyUnderAny :
    (params false .fault none).unwrittenLoad ≠ .any ∧ (machineOf (params false .fault none) []).status = .running := by
  decide
theorem witness_OnlyCallAndRetChangeTheCallStack :
    ∃ t, step ⟨_, { machine [] ["RET"] with cs := [5] }⟩ = .next ⟨Config.specParams, t⟩ ∧ t.cs = [] := ⟨_, rfl, rfl⟩
theorem witness_EveryStepKeepsTheInvariant :
    Inv (machine [(1, 3)] ["CMP R1 R0"]) ∧ ∃ t, step ⟨_, machine [(1, 3)] ["CMP R1 R0"]⟩ = .next ⟨Config.specParams, t⟩ :=
  ⟨⟨by decide, by decide, by decide, by decide, by decide, by decide, by decide,
    fun n h => absurd h (by simp [Config.specParams])⟩, _, rfl⟩
theorem witness_EveryStepKeepsStackEntriesCalls :
    StackEntriesAreCalls { machine [] ["CALL R0"] with cs := [0] } ∧
      ∃ t, step ⟨_, { machine [] ["CALL R0"] with cs := [0] }⟩ = .next ⟨Config.specParams, t⟩ :=
  ⟨fun v hv => ⟨"CALL R0".toList, 0, by rw [List.mem_singleton.mp hv]; rfl, rfl⟩, _, rfl⟩
theorem witness_ReachableStatesSatisfyTheInvariant :
    ∃ s, Reachable s ∧ s.arch.status = .haltedError :=
  ⟨_, .command .step (.construct Config.specParams) rfl, rfl⟩
theorem witness_ResetZeroesAllButTheCallStack :
    ((machine []).errorHalt .fetchFault).status ≠ .running ∧
      ∃ s', hostCommand ⟨_, (machine []).errorHalt .fetchFault⟩ .reset = some s' ∧ s'.arch.status = .running :=
  ⟨by decide, _, rfl, rfl⟩
theorem witness_HostWritesOnlyWhatTheCommandNames :
    ["NOP".toList].length ≤ 2 ^ (Config.specParams.xlen - 1) ∧
      Memory.wf ([(0, 7), (0xFFFFFFFF, 1)] : Memory 32) = true := by decide

end Sys2Proof.Tests
end

section
/-! PROOFS. The words' two readings, signed and unsigned, and the scope of the statements: the register file and the
flags (spec/00_scope.md, R6, R8). -/

namespace Sys2Proof.Machine

variable {n : Nat}

/-! ## A pattern's value modulo `2^n` (R8) -/

/-- `wrap` depends on the residue of its argument modulo `2^n` alone. -/
theorem wrap_eq_wrap_of_modEq {u v : Int} (h : u ≡ v [ZMOD 2 ^ n]) : (wrap u : Word n) = wrap v := by
  apply BitVec.eq_of_toNat_eq
  rw [BitVec.toNat_ofInt, BitVec.toNat_ofInt]
  exact congrArg Int.toNat (by exact_mod_cast h)

/-- The signed and the unsigned value of a pattern are congruent modulo `2^n`. -/
theorem sval_modEq_uval (a : Word n) : sval a ≡ uval a [ZMOD 2 ^ n] := by
  rw [Int.ModEq, sval, BitVec.toInt_eq_toNat_bmod]
  exact_mod_cast Int.bmod_emod

/-! ## Sum, difference and product (R131, R133 to R135) -/

theorem addResult_eq_wrap_uval (a b : Word n) : addResult a b = wrap ((uval a : Int) + uval b) :=
  wrap_eq_wrap_of_modEq ((sval_modEq_uval a).add (sval_modEq_uval b))

theorem subResult_eq_wrap_uval (a b : Word n) : subResult a b = wrap ((uval a : Int) - uval b) :=
  wrap_eq_wrap_of_modEq ((sval_modEq_uval a).sub (sval_modEq_uval b))

theorem mulResult_eq_wrap_uval (a b : Word n) : mulResult a b = wrap ((uval a : Int) * uval b) :=
  wrap_eq_wrap_of_modEq ((sval_modEq_uval a).mul (sval_modEq_uval b))

/-- The destination of a register write reads back the value written, also after the PC has moved on. -/
theorem readReg_writeReg_advance {p : Config.Params} (d : RegIdx) (v : Word p.xlen) (s : Arch p) :
    (s.writeReg d v).advance.readReg d = v := by
  rw [advance_readReg, readReg_writeReg_same]

/-- Settles O28: the signed and the unsigned values of the operands are congruent modulo `2^XLEN`, hence so are their
sums, differences and products, and `wrap` sees no more than the residue. -/
theorem addSubMulAreTheSameUnsigned : Obligations.AddSubMulAreTheSameUnsigned := by
  intro p d r s
  refine ⟨⟨_, rfl, ?_⟩, ⟨_, rfl, ?_⟩, ⟨_, rfl, ?_⟩⟩
  · rw [readReg_writeReg_advance, addResult_eq_wrap_uval]
  · rw [readReg_writeReg_advance, subResult_eq_wrap_uval]
  · rw [readReg_writeReg_advance, mulResult_eq_wrap_uval]

/-! ## The register file and the flags (R20, R25, R47) -/

/-- Settles O47: the parameters fix the length of the register file and the number of flags, and every entry of the
file is the register of its index. -/
theorem thirtyTwoRegistersAndSevenFlags : Obligations.ThirtyTwoRegistersAndSevenFlags := by
  intro p s
  have hlen : s.regs.toList.length = 32 := by rw [Vector.length_toList, p.nreg_eq]
  exact ⟨hlen, p.nflag_eq, exists_readReg s⟩

end Sys2Proof.Machine
end

section
/-! PROOFS. The architectural state over a step, a run and the host's commands: its views and power-on values, who
writes the flags, the registers and the call stack, and the invariant (spec/10_state.md, R20 to R48). -/

namespace Sys2Proof.Machine

variable {p : Config.Params}

/-! ## The packed FLAGS and the STATUS view (R26, R43) -/

/-- The value of a concatenation is that of its parts, the left one above the `n` bits of the right one. -/
theorem toNat_append_eq_add {m n : Nat} (a : BitVec m) (b : BitVec n) :
    (a ++ b).toNat = b.toNat + 2 ^ n * a.toNat := by
  rw [BitVec.toNat_append, ← Nat.shiftLeft_add_eq_or_of_lt b.isLt, Nat.shiftLeft_eq, Nat.mul_comm, Nat.add_comm]

/-- Each flag stands in FLAGS at the bit R26 gives it. -/
theorem pack_getLsbD (f : Flags) :
    f.pack.getLsbD 6 = f.ov ∧ f.pack.getLsbD 5 = f.ab ∧ f.pack.getLsbD 4 = f.eq ∧ f.pack.getLsbD 3 = f.be ∧
      f.pack.getLsbD 2 = f.bt ∧ f.pack.getLsbD 1 = f.co ∧ f.pack.getLsbD 0 = f.er := by
  simp only [Flags.pack, BitVec.getLsbD_append, BitVec.getLsbD_ofBool]
  simp

theorem infoBit_toNat (c : Cause) : c.infoBit.toNat = if c = .arithmeticFault .negShift then 1 else 0 := by
  cases c with
  | arithmeticFault info => cases info <;> rfl
  | _ => rfl

/-- The three fields of STATUS, each at its weight (R43). -/
theorem statusView_toNat (s : Arch p) :
    s.statusView.toNat = s.status.code.toNat + 4 * s.cause.code.toNat +
      64 * if s.cause = .arithmeticFault .negShift then 1 else 0 := by
  rw [Arch.statusView, toNat_append_eq_add, toNat_append_eq_add, infoBit_toNat]
  omega

/-- Settles O59: FLAGS and STATUS are concatenations, read bit by bit and field by field. -/
theorem flagsAndStatusViews : Obligations.FlagsAndStatusViews := by
  refine ⟨pack_getLsbD, fun p s => packedFlags_toNat s, fun p s => ?_⟩
  rw [statusView_toNat]
  congr 2
  · cases s.status <;> rfl
  · congr 1
    cases s.cause <;> rfl

/-! ## Power-on (R48, R231) -/

theorem powerOn_pack (p : Config.Params) : (Arch.powerOn p).flags.pack = 0b0000000#7 := by
  show Flags.pack ⟨false, false, false, false, false, false, false⟩ = 0b0000000#7
  decide

/-- Settles O57: the power-on values are those of `Arch.powerOn`, and `resetCommand` writes the same ones. -/
theorem powerOnValues : Obligations.PowerOnValues := by
  refine ⟨rfl, fun p => ⟨Arch.powerOn p, rfl, powerOn_readReg, powerOn_pack p, rfl, rfl, rfl, rfl, fun s => ?_⟩⟩
  exact ⟨resetCommand s, rfl, fun k => by simp, rfl, rfl, rfl, rfl⟩

/-! ## The call stack and the instruction store (R36, R51) -/

/-- No step changes the instruction store. -/
theorem step_prog {s t : Arch p} (h : step ⟨p, s⟩ = .next ⟨p, t⟩) : t.prog = s.prog := by
  obtain ⟨-, he⟩ := step_cases h
  cases he with
  | fetchFault | decodeFailure => rfl
  | execute _ he => cases he <;> rfl

/-- Settles O52: of the effects of a step, `call` and `ret` alone write the call stack. -/
theorem onlyCallAndRetChangeTheCallStack : Obligations.OnlyCallAndRetChangeTheCallStack := by
  intro p s t h
  obtain ⟨-, he⟩ := step_cases h
  cases he with
  | fetchFault | decodeFailure => exact .inl rfl
  | execute hf he =>
    cases he with
    | call b => exact .inr (.inl ⟨b, hf, rfl⟩)
    | ret below v hcs => exact .inr (.inr ⟨hf, v, hcs, rfl⟩)
    | _ => exact .inl rfl

/-- Settles O54: with the program unchanged, only a pushed entry is to be shown a `CALL`, and `CALL` pushes the address
it was fetched from. -/
theorem everyStepKeepsStackEntriesCalls : Obligations.EveryStepKeepsStackEntriesCalls := by
  intro p s t hi h v hv
  rw [step_prog h]
  rcases onlyCallAndRetChangeTheCallStack p s t h with hcs | ⟨b, ⟨-, str, hstr, hd⟩, hcs⟩ | ⟨-, u, hcs, -⟩
  · exact hi v (hcs ▸ hv)
  · rw [hcs, List.mem_append, List.mem_singleton] at hv
    rcases hv with hv | rfl
    · exact hi v hv
    · exact ⟨str, b, hstr, hd⟩
  · exact hi v (hcs ▸ List.mem_append_left _ hv)

/-! ## The registers (R21) -/

/-- Settles O48: of the effects of a step, `register` alone writes the register file, at the destination. -/
theorem registersAreWrittenOnlyAsFirstOperands : Obligations.RegistersAreWrittenOnlyAsFirstOperands := by
  intro p s t k h hne
  obtain ⟨-, he⟩ := step_cases h
  cases he with
  | fetchFault | decodeFailure => exact absurd rfl hne
  | @execute i _ hf he =>
    cases he with
    | @register _ d n v hd =>
      by_cases hk : k = d
      · exact ⟨i, hf, hk ▸ hd⟩
      · exact absurd (readReg_writeReg_other { s with draws := n } v hk) hne
    | _ => exact absurd rfl hne

theorem writeReg_writeReg_same (s : Arch p) (d : RegIdx) (v x : Word p.xlen) :
    (s.writeReg d v).writeReg d x = s.writeReg d x := by
  simp [Arch.writeReg]

theorem writeReg_comm (s : Arch p) {d k : RegIdx} (v x : Word p.xlen) (h : k ≠ d) :
    (s.writeReg k v).writeReg d x = (s.writeReg d x).writeReg k v := by
  simp only [Arch.writeReg, Arch.mk.injEq, and_true]
  exact Vector.set_comm v x fun e => h (Fin.ext e)

/-- The results `r` and `r'` are those from two states that differ in register `k` alone, where the second
has `v`: they differ in nothing else, or not at all where `k` is the destination `dest`. -/
def SameResultBut (dest : Option RegIdx) (k : RegIdx) (v : Word p.xlen) (r r' : Result) : Prop :=
  ∃ t : Arch p, r = .next ⟨p, t⟩ ∧ (r' = .next ⟨p, t.writeReg k v⟩ ∨ dest = some k ∧ r' = .next ⟨p, t⟩)

section NonInterference

variable {s : Arch p} {k : RegIdx} {v : Word p.xlen}

/-- A next state that carries the other value of register `k` along. -/
theorem SameResultBut.carried {dest : Option RegIdx} (t : Arch p) :
    SameResultBut dest k v (.next ⟨p, t⟩) (.next ⟨p, t.writeReg k v⟩) := ⟨t, rfl, .inl rfl⟩

/-- Writing one word back overwrites the other value of register `k`, or leaves it where it is. -/
theorem SameResultBut.writeBack (d : RegIdx) (x : Word p.xlen) :
    SameResultBut (some d) k v (writeBack d x s) (writeBack d x (s.writeReg k v)) := by
  refine ⟨_, rfl, ?_⟩
  by_cases hk : k = d
  · exact .inr ⟨congrArg some hk.symm, by rw [hk, writeBack_next, writeReg_writeReg_same]⟩
  · exact .inl (by rw [writeBack_next, writeReg_comm s v x hk]; rfl)

theorem memRead_writeReg (a : Word p.xlen) :
    memRead (s.writeReg k v) a = (memRead s a).map fun r => (r.1, r.2.writeReg k v) := by
  unfold memRead
  rw [writeReg_mem]
  cases Memory.read s.mem a with
  | some u => rfl
  | none => cases p.unwrittenLoad <;> rfl

theorem popCall_writeReg : (s.writeReg k v).popCall = s.popCall.map fun r => (r.1, r.2.writeReg k v) := by
  unfold Arch.popCall
  rw [writeReg_cs]
  cases s.cs.getLast? <;> rfl

theorem callStackFull_writeReg : (s.writeReg k v).callStackFull = s.callStackFull := rfl

theorem flagsMatch_writeReg (e m : FlagLiteral) : (s.writeReg k v).flagsMatch e m = s.flagsMatch e m := rfl

theorem effectiveAddress_writeReg (off : Int) {b : RegIdx} (h : (s.writeReg k v).readReg b = s.readReg b) :
    effectiveAddress (s.writeReg k v) off b = effectiveAddress s off b := by
  rw [effectiveAddress, effectiveAddress, h]

/-- A load from an address that does not depend on register `k`. -/
theorem SameResultBut.execLw (t : RegIdx) (off : Int) {b : RegIdx}
    (h : (s.writeReg k v).readReg b = s.readReg b) :
    SameResultBut (some t) k v (execLw t off b ⟨p, s⟩) (execLw t off b ⟨p, s.writeReg k v⟩) := by
  simp only [Machine.execLw, effectiveAddress_writeReg off h, memRead_writeReg]
  cases memRead s (effectiveAddress s off b) with
  | none => exact .carried _
  | some r => exact .writeBack t r.1

theorem SameResultBut.execShift (f : Word p.xlen → Nat → Word p.xlen) {d r : RegIdx}
    (hd : (s.writeReg k v).readReg d = s.readReg d) (hr : (s.writeReg k v).readReg r = s.readReg r) :
    SameResultBut (some d) k v (execShift f d r s) (execShift f d r (s.writeReg k v)) := by
  simp only [Machine.execShift, hd, hr]
  cases shiftAmount (s.readReg r) with
  | none => exact .carried _
  | some n => exact .writeBack d _

theorem SameResultBut.execRet :
    SameResultBut none k v (execRet ⟨p, s⟩) (execRet ⟨p, s.writeReg k v⟩) := by
  simp only [Machine.execRet, popCall_writeReg]
  cases s.popCall with
  | some r => exact .carried _
  | none => cases p.retEmptyIsError <;> exact .carried _

end NonInterference

/-- Settles O49: the instruction's source registers read the same in both states, so it computes the same words; what
it then writes leaves register `k` alone or overwrites it. -/
theorem registersAreReadOnlyAsSources : Obligations.RegistersAreReadOnlyAsSources := by
  intro p i s k v hk
  have hread : ∀ r ∈ sources i, (s.writeReg k v).readReg r = s.readReg r := fun r hr =>
    readReg_writeReg_other s v fun e => hk (e ▸ hr)
  change SameResultBut (destination i) k v (exec i ⟨p, s⟩) (exec i ⟨p, s.writeReg k v⟩)
  cases i with
  | mov d r | not d r | add d r | sub d r | mul d r | and d r | or d r =>
    simp only [sources, List.forall_mem_cons] at hread
    simp only [exec, execMov, execNot, execAdd, execSub, execMul, execAnd, execOr, hread]
    exact .writeBack d _
  | div d r =>
    simp only [sources, List.forall_mem_cons] at hread
    simp only [exec, execDiv, hread]
    cases divResult (s.readReg d) (s.readReg r) with
    | none => exact .carried _
    | some q => exact .writeBack d q
  | shl d r | shr d r => exact .execShift _ (hread d (by simp [sources])) (hread r (by simp [sources]))
  | lw t off b => exact .execLw t off (hread b (by simp [sources]))
  | cmp a b =>
    simp only [exec, execCmp, hread a (by simp [sources]), hread b (by simp [sources])]
    exact .carried _
  | sw t off b =>
    simp only [exec, execSw, effectiveAddress_writeReg off (hread b (by simp [sources])),
      hread t (by simp [sources])]
    exact .carried _
  | jr b =>
    simp only [exec, execJr, hread b (by simp [sources])]
    exact .carried _
  | call b =>
    simp only [exec, execCall, callStackFull_writeReg, hread b (by simp [sources])]
    cases s.callStackFull <;> exact .carried _
  | brfl b e m =>
    simp only [exec, execBrfl, flagsMatch_writeReg, hread b (by simp [sources])]
    cases s.flagsMatch e m <;> exact .carried _
  | ret => exact .execRet
  | jpc | nop => exact .carried _

/-! ## The flags (R27 to R29) -/

/-- From `f` to `g` the flags that have no writer are unchanged, and no flag is cleared (R28, R29). -/
def Flags.KeptIn (f g : Flags) : Prop :=
  g.ov = f.ov ∧ g.bt = f.bt ∧ g.co = f.co ∧ (f.eq = true → g.eq = true) ∧ (f.ab = true → g.ab = true) ∧
    (f.be = true → g.be = true) ∧ (f.er = true → g.er = true)

theorem Flags.KeptIn.refl (f : Flags) : f.KeptIn f := ⟨rfl, rfl, rfl, id, id, id, id⟩

theorem Flags.KeptIn.trans {f g h : Flags} (hfg : f.KeptIn g) (hgh : g.KeptIn h) : f.KeptIn h := by
  obtain ⟨ov, bt, co, eq, ab, be, er⟩ := hfg
  obtain ⟨ov', bt', co', eq', ab', be', er'⟩ := hgh
  exact ⟨ov'.trans ov, bt'.trans bt, co'.trans co, eq' ∘ eq, ab' ∘ ab, be' ∘ be, er' ∘ er⟩

theorem Flags.keptIn_setCompare (f : Flags) (A B : Int) : f.KeptIn (f.setCompare A B) := by
  unfold Flags.setCompare
  split
  · simp [Flags.KeptIn]
  · split <;> simp [Flags.KeptIn]

@[simp] theorem setCompare_er (f : Flags) (A B : Int) : (f.setCompare A B).er = f.er := by
  unfold Flags.setCompare
  split
  · rfl
  · split <;> rfl

/-- What a step can do to the flags: nothing, what its `CMP` does, or what its error halt does. -/
theorem step_flags {s t : Arch p} (h : step ⟨p, s⟩ = .next ⟨p, t⟩) :
    (t.flags = s.flags ∧ t.status ≠ .haltedError) ∨
    (∃ a b A B, Fetches s (.cmp a b) ∧ t.flags = s.flags.setCompare A B ∧ t.status ≠ .haltedError) ∨
    (t.flags = { s.flags with er := true } ∧ t.status = .haltedError) := by
  obtain ⟨hs, he⟩ := step_cases h
  have hne : s.status ≠ .haltedError := by simp [hs]
  cases he with
  | fetchFault | decodeFailure => exact .inr (.inr ⟨rfl, rfl⟩)
  | execute hf he =>
    cases he with
    | errorHalt => exact .inr (.inr ⟨rfl, rfl⟩)
    | compare a b => exact .inr (.inl ⟨a, b, _, _, hf, rfl, hne⟩)
    | normalHalt => exact .inl ⟨rfl, by simp⟩
    | _ => exact .inl ⟨rfl, hne⟩

theorem step_keptIn {s t : Arch p} (h : step ⟨p, s⟩ = .next ⟨p, t⟩) : s.flags.KeptIn t.flags := by
  rcases step_flags h with ⟨hf, -⟩ | ⟨_, _, A, B, -, hf, -⟩ | ⟨hf, -⟩
  · exact hf ▸ .refl _
  · exact hf ▸ Flags.keptIn_setCompare _ A B
  · exact hf ▸ ⟨rfl, rfl, rfl, id, id, id, fun _ => rfl⟩

/-- Settles O45: what a step does to the flags is what a `CMP` or an error halt does. -/
theorem flagsAreSetOnlyByCmpAndErrorHalts : Obligations.FlagsAreSetOnlyByCmpAndErrorHalts := by
  intro p s t h
  obtain ⟨ov, bt, co, eq, ab, be, er⟩ := step_keptIn h
  refine ⟨ov, bt, co, eq, ab, be, er, ?_⟩
  rcases step_flags h with ⟨hf, hs⟩ | ⟨a, b, A, B, hcmp, hf, hs⟩ | ⟨hf, hs⟩
  · exact ⟨by simp [hf], by simp [hf], fun he => absurd he hs⟩
  · exact ⟨fun _ => ⟨a, b, hcmp⟩, by simp [hf], fun he => absurd he hs⟩
  · exact ⟨by simp [hf], fun _ => hs, fun _ => by rw [hf]⟩

/-- The command `step` keeps what every step keeps, with the parameters: it is a run of one step. -/
theorem stepCommand_induction {P : Arch p → Prop} (hstep : ∀ s t, P s → step ⟨p, s⟩ = .next ⟨p, t⟩ → P t)
    {s : Arch p} (h : P s) : ∃ t, stepCommand ⟨p, s⟩ = ⟨p, t⟩ ∧ P t := by
  have hone : runSteps 1 ⟨p, s⟩ = stepCommand ⟨p, s⟩ := by
    rw [runSteps]
    split
    · rfl
    · next hs => rw [stepCommand_of_not_running hs]
  exact hone ▸ runSteps_induction hstep 1 h

/-- The command `load program` is given only within R51's bound, and writes the instruction store alone. -/
theorem hostCommand_loadProgram {s : Arch p} {s' : State} {strs : List Text}
    (h : hostCommand ⟨p, s⟩ (.loadProgram strs) = some s') :
    strs.length ≤ 2 ^ (p.xlen - 1) ∧ s' = ⟨p, { s with prog := strs }⟩ := by
  obtain ⟨u, hu, rfl⟩ := Option.map_eq_some_iff.mp h
  unfold loadProgramCommand at hu
  split at hu
  · next hlen =>
    cases hu
    exact ⟨hlen, rfl⟩
  · cases hu

/-- Settles O46: a step keeps the flags, hence so does a run of any length; the host's other commands but `reset` do
not write them. -/
theorem flagsStayUntilReset : Obligations.FlagsStayUntilReset := by
  intro p c s s' h hc
  have hstep : ∀ t u : Arch p, s.flags.KeptIn t.flags → step ⟨p, t⟩ = .next ⟨p, u⟩ → s.flags.KeptIn u.flags :=
    fun _ _ hk ht => hk.trans (step_keptIn ht)
  have hself : s.flags.KeptIn s.flags := .refl _
  cases c with
  | reset => exact absurd rfl hc
  | step =>
    cases h
    exact stepCommand_induction hstep hself
  | run n =>
    cases h
    exact runSteps_induction hstep n.toNat hself
  | loadProgram strs =>
    obtain ⟨-, rfl⟩ := hostCommand_loadProgram h
    exact ⟨_, rfl, hself⟩
  | writeRegister | preload | clearCell | clearMemory =>
    cases h
    exact ⟨_, rfl, hself⟩

/-! ## The invariant (R47) -/

/-- The invariant holds right after construction. -/
theorem powerOn_inv (p : Config.Params) : Inv (Arch.powerOn p) where
  cause_none := ⟨fun _ => rfl, fun _ => rfl⟩
  error_flag := nofun
  error_flag_only := nofun
  normal_halt := nofun
  unwritten_flags := ⟨rfl, rfl, rfl⟩
  memory := Memory.nil_wf
  program := Nat.zero_le _
  depth := fun _ _ => Nat.zero_le _

theorem powerOn_stackEntriesAreCalls (p : Config.Params) : StackEntriesAreCalls (Arch.powerOn p) := nofun

/-- Settles O55: both invariants hold at power-on with any parameters, the spec's among them. -/
theorem constructionSatisfiesTheInvariant : Obligations.ConstructionSatisfiesTheInvariant :=
  ⟨powerOn_inv _, powerOn_stackEntriesAreCalls _, fun p => ⟨powerOn_inv p, powerOn_stackEntriesAreCalls p⟩⟩

theorem decodeCauseToCause_ne_none (c : DecodeCause) : decodeCauseToCause c ≠ .none := by
  cases c <;> exact nofun

section Preservation

variable {s : Arch p}

theorem Inv.errorHalt (hi : Inv s) {c : Cause} (hc : c ≠ .none) : Inv (s.errorHalt c) :=
  { hi with
    cause_none := by simp [hc]
    error_flag := fun _ => rfl
    error_flag_only := fun _ => rfl
    normal_halt := nofun }

theorem Inv.normalHalt (hi : Inv s) (hs : s.status = .running) (hp : p.retEmptyIsError = false) :
    Inv (s.normalHalt .retEmptyStack) :=
  { hi with
    cause_none := by simp
    error_flag := nofun
    error_flag_only := fun he => absurd (hi.error_flag_only he) (by simp [hs])
    normal_halt := fun _ => ⟨rfl, hp⟩ }

/-- `CMP` keeps the invariant: it writes none of the flags the invariant names. -/
theorem Inv.compare (hi : Inv s) (A B : Int) : Inv (s.setFlags (s.flags.setCompare A B)).advance := by
  obtain ⟨ov, bt, co, -⟩ := s.flags.keptIn_setCompare A B
  obtain ⟨hov, hbt, hco⟩ := hi.unwritten_flags
  exact { hi with
    error_flag := by simpa using hi.error_flag
    error_flag_only := by simpa using hi.error_flag_only
    unwritten_flags := ⟨ov.trans hov, bt.trans hbt, co.trans hco⟩ }

theorem Inv.memWrite (hi : Inv s) (a v : Word p.xlen) : Inv (memWrite s a v) :=
  { hi with memory := Memory.write_wf a v hi.memory }

/-- A push keeps the stack's bound where the stack was not full (R37, R185). -/
theorem Inv.pushCall (hi : Inv s) (v : Word p.xlen) (h : p.csDepth ≠ some s.cs.length) : Inv (s.pushCall v) :=
  { hi with
    depth := fun n hn => by
      have hle := hi.depth n hn
      have hne : n ≠ s.cs.length := fun e => h (e ▸ hn)
      simp only [pushCall_cs, List.length_append, List.length_singleton]
      omega }

theorem Inv.popCall (hi : Inv s) {below : List (Word p.xlen)} {v : Word p.xlen} (h : s.cs = below ++ [v]) :
    Inv { s with cs := below } :=
  { hi with
    depth := fun n hn => by
      have hle := hi.depth n hn
      simp only [h, List.length_append] at hle
      exact Nat.le_of_add_right_le hle }

/-- A new `pc` keeps the invariant, which does not speak of it. -/
theorem Inv.jump (hi : Inv s) (target : Word p.xlen) : Inv (s.jump target) := { hi with }

/-- A register write keeps the invariant, which does not speak of the registers. -/
theorem Inv.writeReg (hi : Inv s) (d : RegIdx) (v : Word p.xlen) : Inv (s.writeReg d v) := { hi with }

/-- `reset` starts the run state and the flags anew, and keeps the memories and the stack. -/
theorem Inv.resetCommand (hi : Inv s) : Inv (resetCommand s) :=
  { powerOn_inv p with
    memory := hi.memory
    program := hi.program
    depth := hi.depth }

/-- Every instruction of a RUNNING core keeps the invariant. -/
theorem Inv.execEffect {i : Instr} {t : Arch p} (hi : Inv s) (hs : s.status = .running) (he : ExecEffect s i t) :
    Inv t := by
  cases he with
  | errorHalt h => exact hi.errorHalt h.ne_none
  | normalHalt _ hp => exact hi.normalHalt hs hp
  | @register _ d n v =>
    have hdraws : Inv { s with draws := n } := { hi with }
    exact (hdraws.writeReg d v).jump _
  | compare => exact hi.compare _ _
  | store => exact (hi.memWrite _ _).jump _
  | call _ h => exact (hi.pushCall _ h).jump _
  | ret _ _ h => exact (hi.popCall h).jump _
  | jpc | jr | brflTaken | brflFallsThrough | nop => exact hi.jump _

end Preservation

/-- Settles O53: a step ends in an error halt, which has a cause, or in an effect of its instruction. -/
theorem everyStepKeepsTheInvariant : Obligations.EveryStepKeepsTheInvariant := by
  intro p s t hi h
  obtain ⟨hs, he⟩ := step_cases h
  cases he with
  | fetchFault => exact hi.errorHalt (by simp)
  | decodeFailure => exact hi.errorHalt (decodeCauseToCause_ne_none _)
  | execute _ he => exact hi.execEffect hs he

/-- Every command of the host keeps the invariant. -/
theorem Inv.hostCommand {s t : State} (hi : Inv s.arch) {c : HostCommand s.params.xlen}
    (h : hostCommand s c = some t) : Inv t.arch := by
  obtain ⟨p, s⟩ := s
  cases c with
  | reset => cases h; exact hi.resetCommand
  | step =>
    cases h
    obtain ⟨u, hu, hinv⟩ := stepCommand_induction (everyStepKeepsTheInvariant p) hi
    rw [hu]
    exact hinv
  | run n =>
    cases h
    obtain ⟨u, hu, hinv⟩ := runSteps_induction (everyStepKeepsTheInvariant p) n.toNat hi
    show Inv (runSteps n.toNat ⟨p, s⟩).arch
    rw [hu]
    exact hinv
  | writeRegister i v => cases h; exact hi.writeReg i v
  | loadProgram strs =>
    obtain ⟨hlen, rfl⟩ := hostCommand_loadProgram h
    exact { hi with program := hlen }
  | preload a v => cases h; exact hi.memWrite a v
  | clearCell a => cases h; exact { hi with memory := Memory.clear_wf a hi.memory }
  | clearMemory => cases h; exact { hi with memory := Memory.nil_wf }

/-- Settles O56: construction establishes the invariant and every command keeps it. -/
theorem reachableStatesSatisfyTheInvariant : Obligations.ReachableStatesSatisfyTheInvariant := by
  intro s hs
  induction hs with
  | construct p => exact powerOn_inv p
  | command c _ h ih => exact ih.hostCommand h

end Sys2Proof.Machine
end

section
/-! PROOFS. The memory port: the fetch's bound, a load after stores, who writes the two spaces, and the draws of an
unwritten load (spec/20_memory.md, R50 to R65). -/

namespace Sys2Proof.Machine

variable {p : Config.Params}

/-! ## The fetch (R52) -/

/-- The fetch finds nothing exactly from `N` on. -/
theorem fetch_eq_none_iff {s : Arch p} : fetch s = none ↔ s.prog.length ≤ uval s.pc := List.getElem?_eq_none_iff

/-- A pattern whose signed value is negative is in the upper half of the unsigned range. -/
theorem le_uval_of_sval_neg {n : Nat} (hn : 0 < n) {a : Word n} (h : sval a < 0) : 2 ^ (n - 1) ≤ uval a := by
  have hle : 2 ^ n ≤ 2 * uval a := BitVec.toInt_neg_iff.mp h
  rw [← Nat.two_pow_pred_mul_two hn] at hle
  omega

/-- Settles O16: the fetch is a list lookup, and by R51's bound on the program a negative `pc` is past its end. -/
theorem fetchFaultsExactlyOutsideTheProgram : Obligations.FetchFaultsExactlyOutsideTheProgram := by
  intro p s
  have hfault (hs : s.status = .running) (hN : s.prog.length ≤ uval s.pc) :
      ∃ t, step ⟨p, s⟩ = .next ⟨p, t⟩ ∧ ErrorHalted .fetchFault s t :=
    ⟨_, step_of_fetchFault hs (fetch_eq_none_iff.mpr hN), errorHalted_errorHalt _ s⟩
  refine ⟨fun h => List.getElem?_eq_getElem h, hfault, fun hs hN hneg => hfault hs (hN.trans ?_)⟩
  have hxlen : 0 < p.xlen := Nat.zero_lt_of_lt p.xlen_ge
  exact le_uval_of_sval_neg hxlen hneg

/-! ## Stores and loads (R55, R56, R62) -/

/-- Settles O37: the load's cell is the second store's, or one that the second store leaves as the first wrote it. -/
theorem loadSeesTheMostRecentStore : Obligations.LoadSeesTheMostRecentStore := by
  intro p r₁ r₂ r₃ b₁ b₂ b₃ off₁ off₂ off₃ s
  refine ⟨_, _, rfl, rfl, fun heq => ?_, fun heq hne => ?_⟩
  · refine ⟨_, execLw_of_written ?_, readReg_writeReg_advance r₃ _ _⟩
    rw [heq, advance_mem, memWrite_mem, Memory.read_write_same]
  · refine ⟨_, execLw_of_written ?_, readReg_writeReg_advance r₃ _ _⟩
    rw [heq, advance_mem, memWrite_mem, Memory.read_write_other _ _ hne.symm, advance_mem, memWrite_mem,
      Memory.read_write_same]

/-- Settles O50: of the effects of a step, `store` alone writes the data memory, at its effective address. -/
theorem onlyStoresChangeDataMemory : Obligations.OnlyStoresChangeDataMemory := by
  intro p s t h
  refine ⟨step_prog h, fun a hne => ?_⟩
  obtain ⟨-, he⟩ := step_cases h
  cases he with
  | fetchFault | decodeFailure => exact absurd rfl hne
  | execute hf he =>
    cases he with
    | store r off b =>
      by_cases ha : a = effectiveAddress s off b
      · exact ⟨r, off, b, hf, ha⟩
      · exact absurd (Memory.read_write_other s.mem _ ha) hne
    | _ => exact absurd rfl hne

/-! ## The draws of an unwritten load (R54) -/

/-- The results `r` and `r'` are those from `s` and from `s` with the draw counter `n`: the counter is kept, and they
differ in nothing else. -/
def SameResultButDraws (s : Arch p) (n : Nat) (r r' : Result) : Prop :=
  ∃ t : Arch p, r = .next ⟨p, t⟩ ∧ t.draws = s.draws ∧ r' = .next ⟨p, { t with draws := n }⟩

section NonInterference

variable {s : Arch p} {n : Nat}

/-- A next state that carries the draw counter along. -/
theorem SameResultButDraws.carried (t : Arch p) (h : t.draws = s.draws) :
    SameResultButDraws s n (.next ⟨p, t⟩) (.next ⟨p, { t with draws := n }⟩) := ⟨t, rfl, h, rfl⟩

/-- Unless `UNWRITTEN_LOAD` is `Any`, a read leaves the state as it is, and its word does not depend on the counter. -/
theorem memRead_withDraws (hp : p.unwrittenLoad ≠ .any) (s : Arch p) (n : Nat) (a : Word p.xlen) :
    ∃ w : Option (Word p.xlen), memRead s a = w.map (·, s) ∧
      memRead { s with draws := n } a = w.map (·, { s with draws := n }) := by
  unfold memRead
  cases Memory.read s.mem a with
  | some v => exact ⟨some v, rfl, rfl⟩
  | none =>
    cases hu : p.unwrittenLoad with
    | fault => exact ⟨none, rfl, rfl⟩
    | value d => exact ⟨some d, rfl, rfl⟩
    | any => exact absurd hu hp

theorem SameResultButDraws.execLw (hp : p.unwrittenLoad ≠ .any) (t : RegIdx) (off : Int) (b : RegIdx) :
    SameResultButDraws s n (execLw t off b ⟨p, s⟩) (execLw t off b ⟨p, { s with draws := n }⟩) := by
  obtain ⟨w, hw, hw'⟩ := memRead_withDraws hp s n (effectiveAddress s off b)
  have hea : effectiveAddress { s with draws := n } off b = effectiveAddress s off b := rfl
  simp only [Machine.execLw, hea, hw, hw']
  cases w <;> exact .carried _ rfl

/-- Unless `UNWRITTEN_LOAD` is `Any`, no instruction reads or writes the draw counter: only a load could. -/
theorem exec_sameResultButDraws (hp : p.unwrittenLoad ≠ .any) (i : Instr) :
    SameResultButDraws s n (exec i ⟨p, s⟩) (exec i ⟨p, { s with draws := n }⟩) := by
  have hread (r : RegIdx) : Arch.readReg { s with draws := n } r = s.readReg r := rfl
  cases i with
  | lw t off b => exact .execLw hp t off b
  | div d r =>
    simp only [exec, execDiv, hread]
    cases divResult (s.readReg d) (s.readReg r) <;> exact .carried _ rfl
  | shl d r | shr d r =>
    simp only [exec, execShl, execShr, execShift, hread]
    cases shiftAmount (s.readReg r) <;> exact .carried _ rfl
  | call b =>
    have hfull : Arch.callStackFull { s with draws := n } = s.callStackFull := rfl
    simp only [exec, execCall, hfull]
    cases s.callStackFull <;> exact .carried _ rfl
  | ret =>
    simp only [exec, execRet, Arch.popCall]
    cases s.cs.getLast? with
    | some v => exact .carried _ rfl
    | none => cases p.retEmptyIsError <;> exact .carried _ rfl
  | brfl b e m =>
    have hmatch : Arch.flagsMatch { s with draws := n } e m = s.flagsMatch e m := rfl
    simp only [exec, execBrfl, hmatch]
    cases s.flagsMatch e m <;> exact .carried _ rfl
  | mov | add | sub | mul | and | or | not | cmp | sw | jpc | jr | nop => exact .carried _ rfl

end NonInterference

/-- Settles O51: the fetch and the decoder do not read the counter, and neither does the instruction they give. -/
theorem drawsMatterOnlyUnderAny : Obligations.DrawsMatterOnlyUnderAny := by
  intro p s n hp hs
  change SameResultButDraws s n (step ⟨p, s⟩) (step ⟨p, { s with draws := n }⟩)
  cases hf : fetch s with
  | none =>
    rw [step_of_fetchFault hs hf, step_of_fetchFault (s := { s with draws := n }) hs hf]
    exact .carried _ rfl
  | some str =>
    cases hd : decode p.xlen str with
    | error c =>
      rw [step_of_decodeFailure hs hf hd, step_of_decodeFailure (s := { s with draws := n }) hs hf hd]
      exact .carried _ rfl
    | ok i =>
      rw [step_of_fetches ⟨hs, str, hf, hd⟩, step_of_fetches (s := { s with draws := n }) ⟨hs, str, hf, hd⟩]
      exact exec_sameResultButDraws hp i

end Sys2Proof.Machine
end

section
/-! PROOFS. The encoding: tokens, operand tokens, the decoder's checks and their order, and the canonical text
(spec/30_encoding.md, R70 to R90). -/

namespace Sys2Proof.Machine

variable {xlen : Nat} {α β : Type}

/-! ## Tokens (R71) -/

theorem isSeparator_iff {c : Char} : isSeparator c = true ↔ c.toNat ∈ [0x20, 0x09, 0x0A, 0x0B, 0x0C, 0x0D] := by
  simp only [isSeparator, Bool.or_eq_true, decide_eq_true_eq, List.mem_cons, List.not_mem_nil, or_false, or_assoc]

theorem isSeparator_eq_false_iff {c : Char} :
    isSeparator c = false ↔ c.toNat ∉ [0x20, 0x09, 0x0A, 0x0B, 0x0C, 0x0D] := by
  rw [← Bool.not_eq_true, isSeparator_iff]

theorem splitFrom_ne_nil {cur str t : Text} (h : t ∈ splitFrom cur str) : t ≠ [] := by
  fun_induction splitFrom cur str with grind

/-- The tokens hold the characters of the text that are no separators, in their order. -/
theorem splitFrom_flatten (cur str : Text) :
    (splitFrom cur str).flatten = cur ++ str.filter fun c => !isSeparator c := by
  fun_induction splitFrom cur str with simp_all

theorem mem_token_iff {str : Text} {c : Char} : (∃ t ∈ split str, c ∈ t) ↔ c ∈ str ∧ isSeparator c = false := by
  rw [← List.mem_flatten, split, splitFrom_flatten]
  simp

/-- Settles O5: a token holds only characters that are no separators, and `splitFrom` ends the current token at each
separator, wherever it stands. -/
theorem tokensAreMaximalSeparatorFreeRuns : Obligations.TokensAreMaximalSeparatorFreeRuns := by
  refine ⟨fun str t ht => ⟨splitFrom_ne_nil ht, fun c hc => ?_⟩, rfl, fun t hn h => ?_, fun a b c hc => ?_⟩
  · have hsep := isSeparator_eq_false_iff.mp (mem_token_iff.mp ⟨t, ht, hc⟩).2
    simpa using hsep
  · exact split_singleton hn fun c hc => isSeparator_eq_false_iff.mpr (h c hc)
  · exact splitFrom_append_separator [] a b (isSeparator_iff.mpr hc)

/-! ## The cause a computation raises -/

/-- The cause a decoding raises; `none` where it answers a value. -/
def causeOf : Except DecodeCause α → Option DecodeCause
  | .ok _ => none
  | .error c => some c

@[simp] theorem causeOf_ok (a : α) : causeOf (.ok a) = none := rfl

@[simp] theorem causeOf_error (c : DecodeCause) : causeOf (.error c : Except DecodeCause α) = some c := rfl

theorem causeOf_eq_some {x : Except DecodeCause α} {c : DecodeCause} : causeOf x = some c ↔ x = .error c := by
  cases x <;> simp

theorem causeOf_eq_none {x : Except DecodeCause α} : causeOf x = none ↔ ∃ a, x = .ok a := by
  cases x <;> simp

/-- Of two computations in a row, the second gives the cause only where the first raises none. -/
theorem causeOf_bind {x : Except DecodeCause α} {f : α → Except DecodeCause β} {o o' : Option DecodeCause}
    (hx : causeOf x = o) (hf : ∀ a, causeOf (f a) = o') : causeOf (x >>= f) = o.or o' := by
  subst hx
  cases x with
  | ok a => exact hf a
  | error c => rfl

theorem bind_eq_ok {x : Except DecodeCause α} {f : α → Except DecodeCause β} {b : β} :
    (x >>= f) = .ok b ↔ ∃ a, x = .ok a ∧ f a = .ok b := by
  cases x with
  | ok a => simp [bind, Except.bind]
  | error c => simp [bind, Except.bind]

/-! ## Digits and numerals (R75) -/

theorem parseDigits_eq (ds : Text) : parseDigits ds = if isDigits ds = true then some (digitsValue ds) else none := by
  simp [parseDigits, isDigits]

theorem parseNumeral_eq (t : Text) : parseNumeral t = if isNumeral t = true then some (numeralValue t) else none := by
  cases t with
  | nil => rfl
  | cons c cs =>
    simp only [parseNumeral, parseDigits_eq, isNumeral, numeralValue, dropSign, List.head?_cons, Option.some.injEq]
    by_cases hp : c = '+'
    · cases hd : isDigits cs <;> simp [hp, hd]
    · by_cases hm : c = '-'
      · cases hd : isDigits cs <;> simp [hm, hd]
      · cases hd : isDigits (c :: cs) <;> simp [hp, hm, hd]

theorem isDigits_iff {t : Text} : isDigits t = true ↔ t ≠ [] ∧ ∀ c ∈ t, isDigit c = true := by
  simp [isDigits]

theorem isNumeral_ne_nil {t : Text} (h : isNumeral t = true) : t ≠ [] := by
  rintro rfl
  exact absurd h (by decide)

theorem numeral_chars {t : Text} (h : isNumeral t = true) : ∀ c ∈ t, c = '+' ∨ c = '-' ∨ isDigit c = true := by
  obtain ⟨c, cs, rfl⟩ := List.exists_cons_of_ne_nil (isNumeral_ne_nil h)
  have hd := (isDigits_iff.mp h).2
  rw [dropSign] at hd
  split at hd
  · next hsign =>
    intro d hmem
    rcases List.mem_cons.mp hmem with rfl | hmem
    · exact hsign.imp_right .inl
    · exact .inr (.inr (hd d hmem))
  · exact fun d hmem => .inr (.inr (hd d hmem))

/-! ## A register operand (R76) -/

theorem isRegisterShape_iff {t : Text} : isRegisterShape t = true ↔ ∃ ds, t = 'R' :: ds ∧ isDigits ds = true := by
  cases t with
  | nil => simp [isRegisterShape]
  | cons c cs => simp [isRegisterShape, and_assoc]

theorem parseRegister_of_shape {t : Text} (h : isRegisterShape t = true) :
    parseRegister t =
      if hr : digitsValue t.tail < 32 then .ok ⟨digitsValue t.tail, hr⟩ else .error .outOfRangeRegister := by
  obtain ⟨ds, rfl, hd⟩ := isRegisterShape_iff.mp h
  simp only [parseRegister, parseDigits_eq, hd, if_true]
  rfl

theorem parseRegister_of_not_shape {t : Text} (h : isRegisterShape t = false) :
    parseRegister t = .error .malformedInstruction := by
  cases t with
  | nil => rfl
  | cons c cs =>
    rw [parseRegister]
    split
    · next hc => simp_all [isRegisterShape, parseDigits_eq]
    · rfl

theorem isRegisterInRange_eq (t : Text) : isRegisterInRange t = decide (digitsValue t.tail < 32) :=
  decide_eq_decide.mpr Nat.lt_succ_iff.symm

theorem causeOf_parseRegister (t : Text) : causeOf (parseRegister t) = OperandKind.register.failure xlen t := by
  cases hs : isRegisterShape t with
  | false => simp [parseRegister_of_not_shape hs, OperandKind.failure, hs]
  | true =>
    rw [parseRegister_of_shape hs]
    by_cases hr : digitsValue t.tail < 32
    · simp [OperandKind.failure, isRegisterInRange_eq, hs, hr]
    · simp [OperandKind.failure, isRegisterInRange_eq, hs, hr]

theorem parseRegister_eq_ok {t : Text} {r : RegIdx} : parseRegister t = .ok r ↔ NamesRegister t r := by
  rw [NamesRegister]
  cases hs : isRegisterShape t with
  | false => simp [parseRegister_of_not_shape hs]
  | true =>
    rw [parseRegister_of_shape hs]
    split
    · simp [Fin.ext_iff]
    · next hr => exact iff_of_false nofun fun ⟨_, hv⟩ => hr (hv ▸ r.isLt)

/-- Settles O8: a token of the shape answers its register or OUT_OF_RANGE_REGISTER, by the value of its digits. -/
theorem registerTokenIsReadByItsDigits : Obligations.RegisterTokenIsReadByItsDigits := by
  intro t
  refine ⟨fun hs r => ?_, fun hs => ?_, parseRegister_of_not_shape⟩
  · rw [parseRegister_eq_ok, NamesRegister]
    exact and_iff_right hs
  · rw [parseRegister_of_shape hs]
    split
    · next hr => exact iff_of_false nofun (by omega)
    · next hr => exact iff_of_true rfl (by omega)

/-! ## An immediate (R79, R80) -/

theorem parseImmediate_eq (t : Text) :
    parseImmediate xlen t =
      if isNumeral t = true ∧ inSignedRange xlen (numeralValue t) then .ok (numeralValue t)
      else .error .malformedInstruction := by
  rw [parseImmediate, parseNumeral_eq]
  by_cases hn : isNumeral t = true
  · simp only [hn, if_true, true_and]
  · simp [hn]

theorem causeOf_parseImmediate (t : Text) :
    causeOf (parseImmediate xlen t) = OperandKind.immediate.failure xlen t := by
  rw [parseImmediate_eq, OperandKind.failure, isNumeralInRange]
  grind [causeOf]

theorem parseImmediate_eq_ok {t : Text} {v : Int} : parseImmediate xlen t = .ok v ↔ SpellsNumeral xlen t v := by
  rw [parseImmediate_eq, SpellsNumeral]
  grind

/-- Settles O9: the decoder's two checks are the two conditions, and `wrap` keeps a value in the range. -/
theorem immediateTokenIsReadInRange : Obligations.ImmediateTokenIsReadInRange := by
  intro p t
  refine ⟨fun hn hl hu => ⟨parseImmediate_eq_ok.mpr ⟨hn, rfl, hl, hu⟩, ?_⟩, fun h => ?_⟩
  · exact sval_wrap (Nat.zero_lt_of_lt p.xlen_ge) ⟨hl, hu⟩
  · rw [parseImmediate_eq, if_neg]
    rintro ⟨hn, hl, hu⟩
    rcases h with h | h | h
    · exact Bool.eq_false_iff.mp h hn
    · exact absurd hl (not_le.mpr h)
    · exact absurd hu (not_le.mpr h)

/-! ## A memory operand (R77) -/

/-- The token of the offset `n` and the base `r`. -/
abbrev memoryToken (n r : Text) : Text := n ++ '(' :: (r ++ [')'])

/-- The decoder cuts a token at its first `(` and its final `)`. -/
theorem memoryParts_eq_some {t n r : Text} : memoryParts t = some (n, r) ↔ t = memoryToken n r ∧ '(' ∉ n := by
  constructor
  · intro h
    unfold memoryParts at h
    split at h
    · cases h
    · next c inner hd =>
      split at h
      · next hl =>
        obtain ⟨r', rfl⟩ := List.getLast?_eq_some_iff.mp hl
        obtain ⟨rfl, rfl⟩ : t.takeWhile (fun c => c ≠ '(') = n ∧ r' = r := by simpa using h
        have hc : c = '(' := by
          have hhead := List.head?_dropWhile_not (fun c => decide (c ≠ '(')) t
          rw [hd] at hhead
          simpa using hhead
        have ht := List.takeWhile_append_dropWhile (p := fun c => decide (c ≠ '(')) (l := t)
        rw [hd, hc] at ht
        refine ⟨ht.symm, fun hmem => ?_⟩
        simpa using List.mem_takeWhile_imp hmem
      · cases h
  · rintro ⟨rfl, hn⟩
    have hpass : ∀ c ∈ n, decide (c ≠ '(') = true := fun c hc => by
      simpa using fun e : c = '(' => hn (e ▸ hc)
    rw [memoryParts, List.dropWhile_append_of_pos hpass, List.takeWhile_append_of_pos hpass]
    simp

theorem take_append_dropSign (t : Text) : t.take (t.length - (dropSign t).length) ++ dropSign t = t := by
  cases t with
  | nil => rfl
  | cons c cs =>
    rw [dropSign]
    split <;> simp

theorem dropSign_append {t : Text} (h : t ≠ []) (rest : Text) : dropSign (t ++ rest) = dropSign t ++ rest := by
  obtain ⟨c, cs, rfl⟩ := List.exists_cons_of_ne_nil h
  simp only [List.cons_append, dropSign]
  split <;> rfl

/-- The scan from the left cuts a token nowhere else but after its offset. -/
theorem offsetPart_append_afterOffset (t : Text) : offsetPart t ++ afterOffset t = t := by
  rw [offsetPart, afterOffset, List.append_assoc, List.takeWhile_append_dropWhile, take_append_dropSign]

theorem afterOffset_memoryToken {n : Text} (r : Text) (hn : isNumeral n = true) :
    afterOffset (memoryToken n r) = '(' :: (r ++ [')']) := by
  have hd := (isDigits_iff.mp hn).2
  rw [afterOffset, dropSign_append (isNumeral_ne_nil hn), List.dropWhile_append_of_pos hd]
  simp [show isDigit '(' = false by decide]

theorem offsetPart_memoryToken {n : Text} (r : Text) (hn : isNumeral n = true) : offsetPart (memoryToken n r) = n := by
  have h := offsetPart_append_afterOffset (memoryToken n r)
  rw [afterOffset_memoryToken r hn] at h
  exact List.append_cancel_right h

theorem basePart_memoryToken {n : Text} (r : Text) (hn : isNumeral n = true) : basePart (memoryToken n r) = r := by
  rw [basePart, afterOffset_memoryToken r hn]
  simp

theorem isMemoryShape_iff {t : Text} :
    isMemoryShape t = true ↔ ∃ n r, t = memoryToken n r ∧ isNumeral n = true ∧ isRegisterShape r = true := by
  constructor
  · intro h
    simp only [isMemoryShape, Bool.and_eq_true, decide_eq_true_eq] at h
    obtain ⟨⟨⟨hn, hopen⟩, hclose⟩, hr⟩ := h
    refine ⟨offsetPart t, basePart t, ?_, hn, hr⟩
    obtain ⟨inner, hinner⟩ := List.head?_eq_some_iff.mp hopen
    rw [hinner, List.tail_cons] at hclose
    obtain ⟨base, rfl⟩ := List.getLast?_eq_some_iff.mp hclose
    have hafter : afterOffset t = '(' :: (basePart t ++ [')']) := by
      rw [basePart, hinner, List.tail_cons, List.dropLast_concat]
    rw [memoryToken, ← hafter, offsetPart_append_afterOffset]
  · rintro ⟨n, r, rfl, hn, hr⟩
    simp [isMemoryShape, offsetPart_memoryToken r hn, afterOffset_memoryToken r hn, basePart_memoryToken r hn, hn, hr]

theorem paren_not_mem_numeral {n : Text} (h : isNumeral n = true) : '(' ∉ n := by
  intro hmem
  rcases numeral_chars h _ hmem with h | h | h
  · cases h
  · cases h
  · exact (isDigit_not_sign h).2.2.1 rfl

theorem memoryParts_memoryToken {n : Text} (r : Text) (hn : isNumeral n = true) :
    memoryParts (memoryToken n r) = some (n, r) :=
  memoryParts_eq_some.mpr ⟨rfl, paren_not_mem_numeral hn⟩

/-- The offset is checked before the base. -/
theorem causeOf_parseMemory_of_parts {t n r : Text} (h : memoryParts t = some (n, r)) :
    causeOf (parseMemory xlen t) =
      (OperandKind.immediate.failure xlen n).or (OperandKind.register.failure xlen r) := by
  simp only [parseMemory, h]
  rw [← Option.or_none (o := OperandKind.register.failure xlen r)]
  exact causeOf_bind (causeOf_parseImmediate n) fun _ => causeOf_bind (causeOf_parseRegister r) fun _ => rfl

/-- The two parts of a token that is no memory operand are not both of their shape. -/
theorem parseMemory_of_not_shape {t : Text} (h : isMemoryShape t = false) :
    parseMemory xlen t = .error .malformedInstruction := by
  cases hp : memoryParts t with
  | none => rw [parseMemory, hp]
  | some parts =>
    obtain ⟨n, r⟩ := parts
    rw [← causeOf_eq_some, causeOf_parseMemory_of_parts hp]
    cases hn : isNumeral n with
    | false => simp [OperandKind.failure, hn]
    | true =>
      have hr : isRegisterShape r = false := Bool.eq_false_iff.mpr fun hr =>
        Bool.eq_false_iff.mp h (isMemoryShape_iff.mpr ⟨n, r, (memoryParts_eq_some.mp hp).1, hn, hr⟩)
      cases hv : isNumeralInRange xlen n <;> simp [OperandKind.failure, hn, hr, hv]

theorem causeOf_parseMemory (t : Text) : causeOf (parseMemory xlen t) = OperandKind.memory.failure xlen t := by
  cases hs : isMemoryShape t with
  | false => simp [parseMemory_of_not_shape hs, OperandKind.failure, hs]
  | true =>
    obtain ⟨n, r, rfl, hn, hr⟩ := isMemoryShape_iff.mp hs
    rw [causeOf_parseMemory_of_parts (memoryParts_memoryToken r hn)]
    simp only [OperandKind.failure, offsetPart_memoryToken r hn, basePart_memoryToken r hn, hs, hn, hr]
    cases isNumeralInRange xlen n <;> simp

theorem parseMemory_eq_ok {t : Text} {m : Int × RegIdx} :
    parseMemory xlen t = .ok m ↔ ∃ n r, t = memoryToken n r ∧ SpellsNumeral xlen n m.1 ∧ NamesRegister r m.2 := by
  have hparts {n r : Text} (h : memoryParts t = some (n, r)) :
      parseMemory xlen t = .ok m ↔ SpellsNumeral xlen n m.1 ∧ NamesRegister r m.2 := by
    simp [parseMemory, h, bind_eq_ok, parseImmediate_eq_ok, parseRegister_eq_ok, Prod.ext_iff]
  constructor
  · intro h
    cases hp : memoryParts t with
    | none =>
      rw [parseMemory, hp] at h
      cases h
    | some parts => exact ⟨parts.1, parts.2, (memoryParts_eq_some.mp hp).1, (hparts hp).mp h⟩
  · rintro ⟨n, r, rfl, hn, hr⟩
    exact (hparts (memoryParts_memoryToken r hn.1)).mpr ⟨hn, hr⟩

/-- Settles O10: a memory token is cut into its numeral and its register operand, whose checks follow in this order. -/
theorem memoryTokenChecksOffsetThenBase : Obligations.MemoryTokenChecksOffsetThenBase := by
  intro xlen
  refine ⟨fun n r hn hr => ⟨fun hout => ?_, fun hin hb => ?_, fun hin b hb => ?_⟩, fun t ht => ?_⟩
  · rw [← causeOf_eq_some, causeOf_parseMemory_of_parts (memoryParts_memoryToken r hn)]
    have hv : isNumeralInRange xlen n = false := decide_eq_false hout
    simp [OperandKind.failure, hn, hv]
  · rw [← causeOf_eq_some, causeOf_parseMemory_of_parts (memoryParts_memoryToken r hn)]
    have hv : isNumeralInRange xlen n = true := decide_eq_true hin
    have hidx : isRegisterInRange r = false := decide_eq_false (not_le.mpr hb)
    simp [OperandKind.failure, hn, hr, hv, hidx]
  · exact parseMemory_eq_ok.mpr ⟨n, r, rfl, ⟨hn, rfl, hin⟩, hr, hb⟩
  · exact parseMemory_of_not_shape (Bool.eq_false_iff.mpr fun hs => ht (isMemoryShape_iff.mp hs))

/-! ## A flag literal (R78) -/

theorem isFlagLiteral_iff {t : Text} : isFlagLiteral t = true ↔ t.length = 7 ∧ ∀ c ∈ t, c = '0' ∨ c = '1' := by
  simp [isFlagLiteral]

theorem parseFlagLiteral_eq (t : Text) :
    parseFlagLiteral t = if isFlagLiteral t = true then .ok (flagPattern t) else .error .malformedInstruction := by
  simp [parseFlagLiteral, isFlagLiteral, isBinaryDigit]

/-- The value of a string of binary digits, as `flagPattern` reads it. -/
def binaryValue (t : Text) : Nat := t.foldl (fun v c => 2 * v + if c = '1' then 1 else 0) 0

theorem flagPattern_eq (t : Text) : flagPattern t = BitVec.ofNat 7 (binaryValue t) := rfl

theorem binaryValue_concat (t : Text) (c : Char) :
    binaryValue (t ++ [c]) = 2 * binaryValue t + if c = '1' then 1 else 0 := by
  simp [binaryValue]

/-- Digit `k` from the left has `length - 1 - k` digits behind it. -/
theorem testBit_binaryValue (t : Text) (k : Nat) (hk : k < t.length) :
    (binaryValue t).testBit (t.length - 1 - k) = true ↔ t[k]? = some '1' := by
  induction t using List.reverseRecOn with
  | nil => simp at hk
  | append_singleton t c ih =>
    rw [List.length_append, List.length_singleton] at hk ⊢
    rw [binaryValue_concat, Nat.add_sub_cancel]
    by_cases hlast : k = t.length
    · subst hlast
      rw [Nat.sub_self, List.getElem?_concat_length]
      split <;> simp_all
    · have hk' : k < t.length := by omega
      have hhalf : (2 * binaryValue t + if c = '1' then 1 else 0) / 2 = binaryValue t := by split <;> omega
      rw [show t.length - k = t.length - 1 - k + 1 by omega, Nat.testBit_succ, hhalf, ih hk',
        List.getElem?_append_left hk']

theorem flagPattern_getLsbD {t : Text} (h : t.length = 7) {k : Nat} (hk : k < 7) :
    (flagPattern t).getLsbD (6 - k) = true ↔ t[k]? = some '1' := by
  have hbit := testBit_binaryValue t k (h ▸ hk)
  rw [h] at hbit
  rw [flagPattern_eq, BitVec.getLsbD_ofNat, decide_eq_true (by omega), Bool.true_and, hbit]

/-- Seven digits spell one pattern only. -/
theorem spellsLiteral_iff {t : Text} {l : FlagLiteral} :
    SpellsLiteral t l ↔ isFlagLiteral t = true ∧ flagPattern t = l := by
  rw [isFlagLiteral_iff, SpellsLiteral, ← and_assoc]
  refine and_congr_right fun ⟨hlen, _⟩ => ⟨fun hbits => ?_, ?_⟩
  · apply BitVec.eq_of_getLsbD_eq
    intro i hi
    have hk : 6 - i < 7 := by omega
    have hb := (flagPattern_getLsbD hlen hk).trans (hbits (6 - i) hk).symm
    rw [show 6 - (6 - i) = i by omega] at hb
    exact Bool.eq_iff_iff.mpr hb
  · rintro rfl k hk
    exact flagPattern_getLsbD hlen hk

theorem causeOf_parseFlagLiteral (t : Text) :
    causeOf (parseFlagLiteral t) = OperandKind.flagLiteral.failure xlen t := by
  rw [parseFlagLiteral_eq, OperandKind.failure]
  cases isFlagLiteral t <;> rfl

theorem parseFlagLiteral_eq_ok {t : Text} {l : FlagLiteral} : parseFlagLiteral t = .ok l ↔ SpellsLiteral t l := by
  rw [parseFlagLiteral_eq, spellsLiteral_iff]
  cases isFlagLiteral t <;> simp

/-- Settles O11: the pattern's bits are the digits, and the length and the digits are all the decoder checks. -/
theorem flagLiteralIsReadLeftToRight : Obligations.FlagLiteralIsReadLeftToRight := by
  intro t
  rw [← isFlagLiteral_iff]
  refine ⟨fun h => ⟨flagPattern t, ?_, fun k => flagPattern_getLsbD (isFlagLiteral_iff.mp h).1⟩, fun h => ?_⟩
  · rw [parseFlagLiteral_eq, if_pos h]
  · rw [parseFlagLiteral_eq, if_neg h]

/-! ## The operands of a format (R81 to R83) -/

/-- The first failure among operand tokens, taken from left to right, each against its kind. -/
def firstFailure (xlen : Nat) : (ks : List OperandKind) → (ts : List Text) → Option DecodeCause
  | k :: ks, t :: ts => (k.failure xlen t).or (firstFailure xlen ks ts)
  | _, _ => none

/-- The cause that the operand tokens `ts` raise against the kinds `ks`: their number is checked first. -/
def operandsFailure (xlen : Nat) (ks : List OperandKind) (ts : List Text) : Option DecodeCause :=
  if ts.length = ks.length then firstFailure xlen ks ts else some .malformedInstruction

theorem firstFailure_eq_some {ks : List OperandKind} {ts : List Text} {c : DecodeCause} :
    firstFailure xlen ks ts = some c ↔
      ∃ (j : Nat) (k : OperandKind) (t : Text), ks[j]? = some k ∧ ts[j]? = some t ∧ k.failure xlen t = some c ∧
        ∀ i < j, ∀ k' t', ks[i]? = some k' → ts[i]? = some t' → k'.failure xlen t' = none := by
  induction ks generalizing ts with
  | nil => simp [firstFailure]
  | cons k ks ih =>
    cases ts with
    | nil => simp [firstFailure]
    | cons t ts =>
      rw [firstFailure, Option.or_eq_some_iff, ih]
      constructor
      · rintro (h | ⟨h, j, k', t', hk, ht, hf, hb⟩)
        · exact ⟨0, k, t, rfl, rfl, h, nofun⟩
        · refine ⟨j + 1, k', t', hk, ht, hf, fun i hi => ?_⟩
          cases i with
          | zero => simpa using h
          | succ i => simpa using hb i (Nat.lt_of_succ_lt_succ hi)
      · rintro ⟨j, k', t', hk, ht, hf, hb⟩
        cases j with
        | zero => simp_all
        | succ j =>
          exact .inr ⟨hb 0 (by omega) k t rfl rfl, j, k', t', hk, ht, hf, fun i hi => hb (i + 1) (by omega)⟩

theorem operandsWf_iff {ks : List OperandKind} {ts : List Text} :
    operandsWf xlen ks ts = true ↔ operandsFailure xlen ks ts = none := by
  induction ks generalizing ts with
  | nil => cases ts <;> simp [operandsWf, operandsFailure, firstFailure]
  | cons k ks ih =>
    cases ts with
    | nil => simp [operandsWf, operandsFailure]
    | cons t ts =>
      simp only [operandsWf, operandsFailure, firstFailure, List.length_cons, Nat.add_right_cancel_iff,
        Bool.and_eq_true, decide_eq_true_eq, ih]
      split <;> simp [Option.or_eq_none_iff]

/-- Each token of well-formed operands passes the check of a kind. -/
theorem exists_kind_of_operandsWf {ks : List OperandKind} {ts : List Text} (h : operandsWf xlen ks ts = true) {t : Text}
    (ht : t ∈ ts) : ∃ k : OperandKind, k.failure xlen t = none := by
  induction ks generalizing ts with
  | nil => cases ts <;> simp_all [operandsWf]
  | cons k ks ih =>
    cases ts with
    | nil => cases ht
    | cons u ts =>
      simp only [operandsWf, Bool.and_eq_true, decide_eq_true_eq] at h
      rcases List.mem_cons.mp ht with rfl | ht
      · exact ⟨k, h.1⟩
      · exact ih h.2 ht

/-! ### Each format: the cause of its first failing check, and what its tokens spell -/

theorem causeOf_decodeRR (mk : RegIdx → RegIdx → Instr) (ops : List Text) :
    causeOf (decodeRR mk ops) = operandsFailure xlen Format.RR.kinds ops := by
  match ops with
  | [t₁, t₂] =>
    exact causeOf_bind (causeOf_parseRegister t₁) fun _ => causeOf_bind (causeOf_parseRegister t₂) fun _ => rfl
  | [] | [_] | _ :: _ :: _ :: _ => simp [decodeRR, operandsFailure, Format.kinds]

theorem causeOf_decodeRM (mk : RegIdx → Int → RegIdx → Instr) (ops : List Text) :
    causeOf (decodeRM xlen mk ops) = operandsFailure xlen Format.RM.kinds ops := by
  match ops with
  | [t₁, t₂] =>
    exact causeOf_bind (causeOf_parseRegister t₁) fun _ => causeOf_bind (causeOf_parseMemory t₂) fun _ => rfl
  | [] | [_] | _ :: _ :: _ :: _ => simp [decodeRM, operandsFailure, Format.kinds]

theorem causeOf_decodeI (mk : Int → Instr) (ops : List Text) :
    causeOf (decodeI xlen mk ops) = operandsFailure xlen Format.I.kinds ops := by
  match ops with
  | [t₁] => exact causeOf_bind (causeOf_parseImmediate t₁) fun _ => rfl
  | [] | _ :: _ :: _ => simp [decodeI, operandsFailure, Format.kinds]

theorem causeOf_decodeR (mk : RegIdx → Instr) (ops : List Text) :
    causeOf (decodeR mk ops) = operandsFailure xlen Format.R.kinds ops := by
  match ops with
  | [t₁] => exact causeOf_bind (causeOf_parseRegister t₁) fun _ => rfl
  | [] | _ :: _ :: _ => simp [decodeR, operandsFailure, Format.kinds]

theorem causeOf_decodeRLL (mk : RegIdx → FlagLiteral → FlagLiteral → Instr) (ops : List Text) :
    causeOf (decodeRLL mk ops) = operandsFailure xlen Format.RLL.kinds ops := by
  match ops with
  | [t₁, t₂, t₃] =>
    exact causeOf_bind (causeOf_parseRegister t₁) fun _ => causeOf_bind (causeOf_parseFlagLiteral t₂) fun _ =>
      causeOf_bind (causeOf_parseFlagLiteral t₃) fun _ => rfl
  | [] | [_] | [_, _] | _ :: _ :: _ :: _ :: _ => simp [decodeRLL, operandsFailure, Format.kinds]

theorem causeOf_decodeN (i : Instr) (ops : List Text) :
    causeOf (decodeN i ops) = operandsFailure xlen Format.N.kinds ops := by
  cases ops with
  | nil => rfl
  | cons t ts => simp [decodeN, operandsFailure, Format.kinds]

/-- The decoder raises the cause of the first operand check that fails. -/
theorem causeOf_decodeOperands (o : Opcode) (ops : List Text) :
    causeOf (decodeOperands xlen o ops) = operandsFailure xlen o.format.kinds ops := by
  cases o with
  | mov | add | sub | mul | div | and | or | not | shl | shr | cmp => exact causeOf_decodeRR _ ops
  | lw | sw => exact causeOf_decodeRM _ ops
  | jpc => exact causeOf_decodeI _ ops
  | jr | call => exact causeOf_decodeR _ ops
  | brfl => exact causeOf_decodeRLL _ ops
  | ret | nop => exact causeOf_decodeN _ ops

theorem decodeRR_eq_ok {mk : RegIdx → RegIdx → Instr} {ops : List Text} {i : Instr} :
    decodeRR mk ops = .ok i ↔
      ∃ d r, i = mk d r ∧ ∃ t₁ t₂, ops = [t₁, t₂] ∧ NamesRegister t₁ d ∧ NamesRegister t₂ r := by
  match ops with
  | [t₁, t₂] =>
    simp only [decodeRR, bind_eq_ok, parseRegister_eq_ok, Except.ok.injEq]
    grind
  | [] | [_] | _ :: _ :: _ :: _ => simp [decodeRR]

theorem decodeRM_eq_ok {mk : RegIdx → Int → RegIdx → Instr} {ops : List Text} {i : Instr} :
    decodeRM xlen mk ops = .ok i ↔
      ∃ t off b, i = mk t off b ∧ ∃ t₁ n r, ops = [t₁, memoryToken n r] ∧ NamesRegister t₁ t ∧
        SpellsNumeral xlen n off ∧ NamesRegister r b := by
  match ops with
  | [t₁, t₂] =>
    simp only [decodeRM, bind_eq_ok, parseRegister_eq_ok, parseMemory_eq_ok, Prod.exists, Except.ok.injEq]
    grind
  | [] | [_] | _ :: _ :: _ :: _ => simp [decodeRM]

theorem decodeI_eq_ok {mk : Int → Instr} {ops : List Text} {i : Instr} :
    decodeI xlen mk ops = .ok i ↔ ∃ off, i = mk off ∧ ∃ t₁, ops = [t₁] ∧ SpellsNumeral xlen t₁ off := by
  match ops with
  | [t₁] =>
    simp only [decodeI, bind_eq_ok, parseImmediate_eq_ok, Except.ok.injEq]
    grind
  | [] | _ :: _ :: _ => simp [decodeI]

theorem decodeR_eq_ok {mk : RegIdx → Instr} {ops : List Text} {i : Instr} :
    decodeR mk ops = .ok i ↔ ∃ b, i = mk b ∧ ∃ t₁, ops = [t₁] ∧ NamesRegister t₁ b := by
  match ops with
  | [t₁] =>
    simp only [decodeR, bind_eq_ok, parseRegister_eq_ok, Except.ok.injEq]
    grind
  | [] | _ :: _ :: _ => simp [decodeR]

theorem decodeRLL_eq_ok {mk : RegIdx → FlagLiteral → FlagLiteral → Instr} {ops : List Text} {i : Instr} :
    decodeRLL mk ops = .ok i ↔
      ∃ b e m, i = mk b e m ∧ ∃ t₁ t₂ t₃, ops = [t₁, t₂, t₃] ∧ NamesRegister t₁ b ∧ SpellsLiteral t₂ e ∧
        SpellsLiteral t₃ m := by
  match ops with
  | [t₁, t₂, t₃] =>
    simp only [decodeRLL, bind_eq_ok, parseRegister_eq_ok, parseFlagLiteral_eq_ok, Except.ok.injEq]
    grind
  | [] | [_] | [_, _] | _ :: _ :: _ :: _ :: _ => simp [decodeRLL]

theorem decodeN_eq_ok {j i : Instr} {ops : List Text} : decodeN j ops = .ok i ↔ i = j ∧ ops = [] := by
  cases ops with
  | nil => simp [decodeN, eq_comm]
  | cons t ts => simp [decodeN]

/-- What the decoder answers has the mnemonic it was given, and the tokens spell its operands. -/
theorem spellsOperands_of_decodeOperands {o : Opcode} {ops : List Text} {i : Instr}
    (h : decodeOperands xlen o ops = .ok i) : i.opcode = o ∧ SpellsOperands xlen ops i := by
  cases o with
  | mov | add | sub | mul | div | and | or | not | shl | shr | cmp =>
    obtain ⟨d, r, rfl, hs⟩ := decodeRR_eq_ok.mp h
    exact ⟨rfl, hs⟩
  | lw | sw =>
    obtain ⟨t, off, b, rfl, hs⟩ := decodeRM_eq_ok.mp h
    exact ⟨rfl, hs⟩
  | jpc =>
    obtain ⟨off, rfl, hs⟩ := decodeI_eq_ok.mp h
    exact ⟨rfl, hs⟩
  | jr | call =>
    obtain ⟨b, rfl, hs⟩ := decodeR_eq_ok.mp h
    exact ⟨rfl, hs⟩
  | brfl =>
    obtain ⟨b, e, m, rfl, hs⟩ := decodeRLL_eq_ok.mp h
    exact ⟨rfl, hs⟩
  | ret | nop =>
    obtain ⟨rfl, hs⟩ := decodeN_eq_ok.mp h
    exact ⟨rfl, hs⟩

/-- Tokens that spell the operands of an instruction are read as that instruction. -/
theorem decodeOperands_of_spellsOperands {ops : List Text} {i : Instr} (h : SpellsOperands xlen ops i) :
    decodeOperands xlen i.opcode ops = .ok i := by
  cases i with
  | mov | add | sub | mul | div | and | or | not | shl | shr | cmp => exact decodeRR_eq_ok.mpr ⟨_, _, rfl, h⟩
  | lw | sw => exact decodeRM_eq_ok.mpr ⟨_, _, _, rfl, h⟩
  | jpc => exact decodeI_eq_ok.mpr ⟨_, rfl, h⟩
  | jr | call => exact decodeR_eq_ok.mpr ⟨_, rfl, h⟩
  | brfl => exact decodeRLL_eq_ok.mpr ⟨_, _, _, rfl, h⟩
  | ret | nop => exact decodeN_eq_ok.mpr ⟨rfl, h⟩

/-! ## The decoder (R73, R74, R83) -/

theorem ofToken?_eq_some {t : Text} {o : Opcode} : Opcode.ofToken? t = some o ↔ t = o.token := by
  constructor
  · intro h
    simpa [eq_comm] using List.find?_some h
  · rintro rfl
    exact ofToken?_token o

theorem ofToken?_eq_none {t : Text} : Opcode.ofToken? t = none ↔ ∀ o : Opcode, t ≠ o.token := by
  simp only [Option.eq_none_iff_forall_not_mem, Option.mem_def, ofToken?_eq_some, ne_eq]

theorem decodeTokens_mnemonic (o : Opcode) (ops : List Text) :
    decodeTokens xlen (o.token :: ops) = decodeOperands xlen o ops := by
  rw [decodeTokens, ofToken?_token]

theorem decodeTokens_notMnemonic {op : Text} (ops : List Text) (h : ∀ o : Opcode, op ≠ o.token) :
    decodeTokens xlen (op :: ops) = .error .unknownOpcode := by
  rw [decodeTokens, ofToken?_eq_none.mpr h]

/-- What the first two checks of R83 can find: no token, a first token that is no mnemonic, or a mnemonic. -/
inductive TokensCases : List Text → Prop where
  | noToken : TokensCases []
  | notMnemonic {op : Text} (ops : List Text) (h : ∀ o : Opcode, op ≠ o.token) : TokensCases (op :: ops)
  | mnemonic (o : Opcode) (ops : List Text) : TokensCases (o.token :: ops)

theorem tokensCases (ts : List Text) : TokensCases ts := by
  cases ts with
  | nil => exact .noToken
  | cons op ops =>
    cases ho : Opcode.ofToken? op with
    | none => exact .notMnemonic ops (ofToken?_eq_none.mp ho)
    | some o =>
      obtain rfl := ofToken?_eq_some.mp ho
      exact .mnemonic o ops

theorem decodeTokens_eq_ok {ts : List Text} {i : Instr} :
    decodeTokens xlen ts = .ok i ↔ ∃ ops, ts = i.opcode.token :: ops ∧ SpellsOperands xlen ops i := by
  constructor
  · intro h
    cases tokensCases ts with
    | noToken => cases h
    | notMnemonic ops ho =>
      rw [decodeTokens_notMnemonic ops ho] at h
      cases h
    | mnemonic o ops =>
      rw [decodeTokens_mnemonic] at h
      obtain ⟨rfl, hs⟩ := spellsOperands_of_decodeOperands h
      exact ⟨ops, rfl, hs⟩
  · rintro ⟨ops, rfl, hs⟩
    rw [decodeTokens_mnemonic, decodeOperands_of_spellsOperands hs]

theorem tokensWf_iff {ts : List Text} : tokensWf xlen ts = true ↔ ∃ i, decodeTokens xlen ts = .ok i := by
  rw [← causeOf_eq_none]
  cases tokensCases ts with
  | noToken => simp [tokensWf, decodeTokens]
  | notMnemonic ops ho => simp [tokensWf, decodeTokens_notMnemonic ops ho, ofToken?_eq_none.mpr ho]
  | mnemonic o ops =>
    rw [decodeTokens_mnemonic, causeOf_decodeOperands, ← operandsWf_iff, tokensWf, ofToken?_token]

/-- Settles O2: the decoder raises no cause exactly where no check fails. -/
theorem decodeAcceptsExactlyWellFormedText : Obligations.DecodeAcceptsExactlyWellFormedText :=
  fun _ _ => tokensWf_iff.symm

/-- The decoder raises the cause of the first check of R83 that fails. -/
theorem decode_eq_error {str : Text} {c : DecodeCause} : decode xlen str = .error c ↔ TextFails xlen str c := by
  rw [← causeOf_eq_some]
  constructor
  · intro h
    rw [decode] at h
    generalize hts : split str = ts at h
    cases tokensCases ts with
    | noToken =>
      cases h
      exact .noToken hts
    | notMnemonic ops ho =>
      rw [decodeTokens_notMnemonic ops ho] at h
      cases h
      exact .notMnemonic hts ho
    | mnemonic o ops =>
      rw [decodeTokens_mnemonic, causeOf_decodeOperands, operandsFailure] at h
      split at h
      · next hc =>
        obtain ⟨j, k, t, hk, ht, hf, hb⟩ := firstFailure_eq_some.mp h
        exact .operand hts hc hk ht hf hb
      · next hc =>
        cases h
        exact .wrongCount hts hc
  · intro hfails
    cases hfails with
    | noToken h =>
      rw [decode, h]
      rfl
    | notMnemonic h ho =>
      rw [decode, h, decodeTokens_notMnemonic _ ho]
      rfl
    | wrongCount h hc =>
      rw [decode, h, decodeTokens_mnemonic, causeOf_decodeOperands, operandsFailure, if_neg hc]
    | operand h hc hk ht hf hb =>
      rw [decode, h, decodeTokens_mnemonic, causeOf_decodeOperands, operandsFailure, if_pos hc]
      exact firstFailure_eq_some.mpr ⟨_, _, _, hk, ht, hf, hb⟩

/-- Settles O3: from the cause of the first failing check and from what the tokens of an instruction spell. -/
theorem decodeChecksInOrder : Obligations.DecodeChecksInOrder := by
  intro xlen
  refine ⟨fun str c => decode_eq_error, fun str i => decodeTokens_eq_ok, fun str => ?_, rfl, rfl, rfl, rfl⟩
  simp only [← causeOf_eq_none, Option.eq_none_iff_forall_ne_some, ne_eq, causeOf_eq_some, decode_eq_error]

/-- Settles O7: these are the checks `noToken` and `wrongCount` of R83's order. -/
theorem noTokenOrWrongCountIsMalformed : Obligations.NoTokenOrWrongCountIsMalformed := by
  intro xlen
  refine ⟨fun str h => decode_eq_error.mpr (.noToken h), fun str op ops o h hop hc => ?_, rfl, rfl⟩
  subst hop
  refine decode_eq_error.mpr (.wrongCount h fun hk => hc ?_)
  rw [hk]
  cases o.format <;> rfl

/-- The mnemonics are those of R85's list. -/
theorem not_mem_tokens_iff {op : Text} : op ∉ Opcode.all.map Opcode.token ↔ ∀ o : Opcode, op ≠ o.token := by
  have hall (o : Opcode) : o ∈ Opcode.all := by cases o <;> decide
  simp [hall, eq_comm]

theorem failure_ne_unknownOpcode (k : OperandKind) (t : Text) : k.failure xlen t ≠ some .unknownOpcode := by
  cases k <;> grind [OperandKind.failure]

/-- Settles O6: of the checks of R83's order, `notMnemonic` alone raises UNKNOWN_OPCODE. -/
theorem unknownOpcodeExactlyForNonMnemonics : Obligations.UnknownOpcodeExactlyForNonMnemonics := by
  intro xlen str
  rw [decode_eq_error]
  constructor
  · intro h
    cases h with
    | notMnemonic h ho => exact ⟨_, _, h, not_mem_tokens_iff.mpr ho⟩
    | operand _ _ _ _ hf => exact absurd hf (failure_ne_unknownOpcode _ _)
  · rintro ⟨op, ops, h, ho⟩
    exact .notMnemonic h (not_mem_tokens_iff.mp ho)

/-! ## The characters of an instruction (R70) -/

/-- A character that operand tokens are made of (R75 to R78). -/
def IsOperandChar (c : Char) : Prop := isDigit c = true ∨ c ∈ ['+', '-', 'R', '(', ')']

theorem IsOperandChar.noSeparator_ascii {c : Char} (h : IsOperandChar c) : isSeparator c = false ∧ c.toNat < 128 := by
  rcases h with h | h
  · refine ⟨isDigit_noSeparator h, ?_⟩
    simp only [isDigit, Bool.and_eq_true, decide_eq_true_eq] at h
    omega
  · fin_cases h <;> decide

theorem isOperandChar_of_isNumeral {t : Text} (h : isNumeral t = true) {c : Char} (hc : c ∈ t) : IsOperandChar c := by
  rcases numeral_chars h c hc with rfl | rfl | hd
  · exact .inr (by simp)
  · exact .inr (by simp)
  · exact .inl hd

theorem isOperandChar_of_isRegisterShape {t : Text} (h : isRegisterShape t = true) {c : Char} (hc : c ∈ t) :
    IsOperandChar c := by
  obtain ⟨ds, rfl, hd⟩ := isRegisterShape_iff.mp h
  rcases List.mem_cons.mp hc with rfl | hc
  · exact .inr (by simp)
  · exact .inl ((isDigits_iff.mp hd).2 c hc)

theorem isOperandChar_of_isMemoryShape {t : Text} (h : isMemoryShape t = true) {c : Char} (hc : c ∈ t) :
    IsOperandChar c := by
  obtain ⟨n, r, rfl, hn, hr⟩ := isMemoryShape_iff.mp h
  simp only [List.mem_append, List.mem_cons, List.not_mem_nil, or_false] at hc
  rcases hc with hc | rfl | hc | rfl
  · exact isOperandChar_of_isNumeral hn hc
  · exact .inr (by simp)
  · exact isOperandChar_of_isRegisterShape hr hc
  · exact .inr (by simp)

theorem isOperandChar_of_isFlagLiteral {t : Text} (h : isFlagLiteral t = true) {c : Char} (hc : c ∈ t) :
    IsOperandChar c := by
  rcases (isFlagLiteral_iff.mp h).2 c hc with rfl | rfl
  · exact .inl (by decide)
  · exact .inl (by decide)

/-- The shape is the first part of each kind's check. -/
theorem isOperandChar_of_passes {k : OperandKind} {t : Text} (h : k.failure xlen t = none) {c : Char} (hc : c ∈ t) :
    IsOperandChar c := by
  cases k with
  | register => exact isOperandChar_of_isRegisterShape (by grind [OperandKind.failure]) hc
  | memory => exact isOperandChar_of_isMemoryShape (by grind [OperandKind.failure]) hc
  | immediate => exact isOperandChar_of_isNumeral (by grind [OperandKind.failure]) hc
  | flagLiteral => exact isOperandChar_of_isFlagLiteral (by grind [OperandKind.failure]) hc

theorem ne_nil_of_passes {k : OperandKind} {t : Text} (h : k.failure xlen t = none) : t ≠ [] := by
  rintro rfl
  cases k <;> cases h

theorem token_chars (o : Opcode) : o.token ≠ [] ∧ ∀ c ∈ o.token, isSeparator c = false ∧ c.toNat < 128 := by
  cases o <;> simp [Opcode.token, isSeparator]

/-- No token of an instruction is empty, or holds a separator or a character outside ASCII. -/
theorem tokensWf_chars {ts : List Text} (h : tokensWf xlen ts = true) {t : Text} (ht : t ∈ ts) :
    t ≠ [] ∧ ∀ c ∈ t, isSeparator c = false ∧ c.toNat < 128 := by
  cases tokensCases ts with
  | noToken => cases ht
  | notMnemonic ops ho => simp [tokensWf, ofToken?_eq_none.mpr ho] at h
  | mnemonic o ops =>
    rw [tokensWf, ofToken?_token] at h
    rcases List.mem_cons.mp ht with rfl | ht
    · exact token_chars o
    · obtain ⟨k, hk⟩ := exists_kind_of_operandsWf h ht
      exact ⟨ne_nil_of_passes hk, fun c hc => (isOperandChar_of_passes hk hc).noSeparator_ascii⟩

/-- Settles O12: a character is a separator or stands in a token, and the tokens of an instruction are ASCII. -/
theorem nonAsciiTextNeverDecodes : Obligations.NonAsciiTextNeverDecodes := by
  intro xlen str i h c hc
  cases hsep : isSeparator c with
  | true =>
    have hcode := isSeparator_iff.mp hsep
    simp only [List.mem_cons, List.not_mem_nil, or_false] at hcode
    omega
  | false =>
    obtain ⟨t, ht, hct⟩ := mem_token_iff.mpr ⟨hc, hsep⟩
    exact ((tokensWf_chars (tokensWf_iff.mpr ⟨i, h⟩) ht).2 c hct).2

/-! ## The canonical text (R85, R86, R90) -/

theorem namesRegister_renderRegister (r : RegIdx) : NamesRegister (renderRegister r) r :=
  ⟨(renderRegister_shape r).1, renderNat_value r.val⟩

theorem spellsNumeral_renderInt {off : Int} (h : inSignedRange xlen off) : SpellsNumeral xlen (renderInt off) off :=
  ⟨isNumeral_renderInt off, numeralValue_renderInt off, h⟩

theorem spellsLiteral_renderFlagLiteral (l : FlagLiteral) : SpellsLiteral (renderFlagLiteral l) l := by
  have hget (k : Nat) (hk : k < 7) : (renderFlagLiteral l)[k]? = some (if l.getLsbD (6 - k) then '1' else '0') := by
    simp [renderFlagLiteral, hk]
  refine ⟨rfl, fun c hc => ?_, fun k hk => ?_⟩
  · obtain ⟨k, -, rfl⟩ := List.mem_map.mp hc
    split <;> simp
  · rw [hget k hk]
    split <;> simp_all

theorem spellsOperands_operandTokens {i : Instr} (h : i.wf xlen = true) : SpellsOperands xlen i.operandTokens i := by
  cases i with
  | mov | add | sub | mul | div | and | or | not | shl | shr | cmp =>
    exact ⟨_, _, rfl, namesRegister_renderRegister _, namesRegister_renderRegister _⟩
  | lw | sw =>
    exact ⟨_, _, _, rfl, namesRegister_renderRegister _, spellsNumeral_renderInt (of_decide_eq_true h),
      namesRegister_renderRegister _⟩
  | jpc => exact ⟨_, rfl, spellsNumeral_renderInt (of_decide_eq_true h)⟩
  | jr | call => exact ⟨_, rfl, namesRegister_renderRegister _⟩
  | brfl =>
    exact ⟨_, _, _, rfl, namesRegister_renderRegister _, spellsLiteral_renderFlagLiteral _,
      spellsLiteral_renderFlagLiteral _⟩
  | ret | nop => rfl

/-- Settles O1: the canonical text splits into the tokens it is joined from, and these spell the instruction. -/
theorem decodeOfEncodeIsTheInstruction : Obligations.DecodeOfEncodeIsTheInstruction := by
  intro xlen i h
  have hdecode : decodeTokens xlen i.tokens = .ok i :=
    decodeTokens_eq_ok.mpr ⟨i.operandTokens, rfl, spellsOperands_operandTokens h⟩
  have hsplit : split (encode i) = i.tokens := split_joinTokens fun t ht => by
    obtain ⟨hn, hc⟩ := tokensWf_chars (tokensWf_iff.mpr ⟨i, hdecode⟩) ht
    exact ⟨hn, fun c hmem => (hc c hmem).1⟩
  rw [decode, hsplit, hdecode]

/-- Settles O4: each of the ten texts is decoded by evaluation. -/
theorem writtenTextsDecode : Obligations.WrittenTextsDecode :=
  ⟨rfl, rfl, rfl, rfl, rfl, rfl, rfl, rfl, rfl, rfl⟩

/-- Settles O17: the step is `raise`, which is the error halt. -/
theorem decodeFailureOnlyHalts : Obligations.DecodeFailureOnlyHalts := by
  intro p s str c hs hf hd
  refine ⟨_, step_of_decodeFailure hs hf hd, ?_⟩
  cases c <;> exact errorHalted_errorHalt _ s

end Sys2Proof.Machine
end

section
/-! PROOFS. The step and the run: what a step answers, the program counter over straight-line code, and the budgets and
the end of a run (spec/40_sequencer.md, R110 to R121). -/

namespace Sys2Proof.Machine

variable {p : Config.Params} {n : Nat}

/-! ## The step (R110 to R112) -/

/-- Settles O13: in a RUNNING state whose fetched string decodes, the step takes its execute branch. -/
theorem stepRunsTheDecodedInstruction : Obligations.StepRunsTheDecodedInstruction :=
  fun _ _ _ => step_of_fetches

/-- Settles O14: the step and every instruction answer one of their effects. -/
theorem runningStepAnswersNext : Obligations.RunningStepAnswersNext := by
  intro p s
  refine ⟨fun hs => ?_, fun i => ?_⟩
  · obtain ⟨t, ht, -⟩ := step_effect hs
    exact ⟨t, ht⟩
  · obtain ⟨t, ht, -⟩ := exec_effect i s
    exact ⟨t, ht⟩

/-- Settles O15: the step stops in a state that is not RUNNING, hence the commands leave it as it is. -/
theorem haltedCoreHasNoTransition : Obligations.HaltedCoreHasNoTransition :=
  fun _ h => ⟨step_of_not_running h, stepCommand_of_not_running h, fun n => run_of_not_running n h⟩

/-! ## The program counter over straight-line code (R113, R116) -/

/-- Adding an integer to a pattern's unsigned value and wrapping is adding in the words. -/
theorem wrap_uval_add (a : Word n) (v : Int) : (wrap ((uval a : Int) + v) : Word n) = a + wrap v := by
  rw [wrap, BitVec.ofInt_add, BitVec.ofInt_natCast, uval, BitVec.ofNat_toNat, BitVec.setWidth_eq]

/-- An instruction that is no control transfer moves `pc` to the next address, unless it halts. -/
theorem ExecEffect.pc_of_isStraightLine {s t : Arch p} {i : Instr} (he : ExecEffect s i t) (hi : IsStraightLine i)
    (ht : t.status = .running) : t.pc = nextPc s.pc := by
  cases he with
  | register | compare | store | nop => rfl
  | errorHalt | normalHalt => cases ht
  | jpc | jr | call | ret | brflTaken | brflFallsThrough => simp [IsStraightLine, Instr.opcode] at hi

/-- Settles O18, by induction on the number of steps: each adds 1 to `pc` in the words, where addition is associative. -/
theorem straightStepsAdvancePcByTheirNumber : Obligations.StraightStepsAdvancePcByTheirNumber := by
  intro p k
  induction k with
  | zero =>
    rintro s t rfl
    simp
  | succ k ih =>
    rintro s t ⟨i, u, hf, hi, hu, hrun, hrest⟩
    rw [step_of_fetches hf] at hu
    have hpc : u.pc = nextPc s.pc := (exec_cases hu).pc_of_isStraightLine hi hrun
    calc t.pc = u.pc + wrap k := by rw [ih u t hrest, wrap_uval_add]
      _ = s.pc + wrap (1 + k) := by rw [hpc, nextPc, wrap_uval_add, BitVec.add_assoc, wrap, wrap, ← BitVec.ofInt_add]
      _ = wrap ((uval s.pc : Int) + (k + 1 : Nat)) := by rw [wrap_uval_add, Nat.cast_succ, add_comm (1 : Int)]

/-! ## The run (R117 to R121) -/

/-- A run of one step more is that step and then the run: once the CORE has halted, neither changes the state. -/
theorem runSteps_succ (n : Nat) (s : State) : runSteps (n + 1) s = runSteps n (stepCommand s) := by
  rw [runSteps]
  split
  · rfl
  · next h => rw [stepCommand_of_not_running h, runSteps_of_not_running n h]

theorem runSteps_add (m n : Nat) (s : State) : runSteps (m + n) s = runSteps n (runSteps m s) := by
  induction m generalizing s with
  | zero => rw [Nat.zero_add, runSteps]
  | succ m ih => rw [Nat.succ_add, runSteps_succ, runSteps_succ, ih]

/-- After the halt, a run goes no further. -/
theorem runSteps_of_le {m n : Nat} {s : State} (h : (runSteps m s).arch.status ≠ .running) (hmn : m ≤ n) :
    runSteps n s = runSteps m s := by
  obtain ⟨k, rfl⟩ := Nat.exists_eq_add_of_le hmn
  rw [runSteps_add, runSteps_of_not_running k h]

/-- The result of a run depends on nothing but the state it leaves. -/
theorem run_eq_run {m n : Int} {s t : State} (h : runSteps m.toNat s = runSteps n.toNat t) : run m s = run n t := by
  rw [run, run, h]

theorem run_of_nonpos {n : Int} (hn : n ≤ 0) (s : State) :
    run n s = (s, if s.arch.status = .running then .budgetExhausted else .halted) := by
  rw [run, Int.toNat_of_nonpos hn, runSteps]

theorem run_of_next {n : Int} {s t : State} (hn : 0 < n) (h : step s = .next t) : run n s = run (n - 1) t := by
  have hbudget : n.toNat = (n - 1).toNat + 1 := by omega
  apply run_eq_run
  rw [hbudget, runSteps_succ, stepCommand_of_next h]

theorem run_of_halts {n : Int} {s : State} (h : (runSteps n.toNat s).arch.status ≠ .running) :
    run n s = (runSteps n.toNat s, .halted) := by
  rw [run, if_neg h]

theorem run_snd_eq_budgetExhausted_iff {n : Int} {s : State} :
    (run n s).2 = .budgetExhausted ↔ (run n s).1.arch.status = .running := by
  simp [run]

/-- Settles O19: one law of `run` for each clause. -/
theorem runStopsAtHaltOrBudget : Obligations.RunStopsAtHaltOrBudget :=
  fun n s => ⟨fun hn => run_of_nonpos hn s, run_of_not_running n, fun _ hn ht => run_of_next hn ht,
    run_snd_eq_budgetExhausted_iff⟩

/-- Settles O20: the steps of the two runs are the steps of the one. -/
theorem consecutiveRunsAreOneRun : Obligations.ConsecutiveRunsAreOneRun := by
  intro m n s hm hn
  apply run_eq_run
  rw [Int.toNat_add hm hn]
  exact runSteps_add _ _ s

/-- Settles O21: of two ends, the one with the greater budget is the other, from which a run goes no further. -/
theorem runEndsInAtMostOneState : Obligations.RunEndsInAtMostOneState := by
  rintro s _ _ ⟨m, rfl, hm⟩ ⟨n, rfl, hn⟩
  refine ⟨?_, m, fun k hk => ?_⟩
  · rcases Nat.le_total m n with hmn | hnm
    · exact (runSteps_of_le hm hmn).symm
    · exact runSteps_of_le hn hnm
  · have hend : runSteps k.toNat s = runSteps m s := runSteps_of_le hm (by omega)
    rw [← hend] at hm ⊢
    exact run_of_halts hm

end Sys2Proof.Machine
end

section
/-! PROOFS. Arithmetic and logic: the results of the register-to-register instructions as integers and as bits, and what
each instruction answers (spec/41_arith_logic.md, R130 to R143). -/

namespace Sys2Proof.Machine

variable {p : Config.Params} {n : Nat}

/-! ## The answers of the shared operations (R130, R204) -/

/-- An instruction's opcode token and format are those of its mnemonic (R81, R85). -/
theorem hasEncoding_opcode (i : Instr) : HasEncoding i i.opcode.token i.opcode.format :=
  ⟨ofToken?_token i.opcode, rfl⟩

theorem writeBack_answers (d : RegIdx) (v : Word p.xlen) (s : Arch p) :
    ∃ t, writeBack d v s = .next ⟨p, t⟩ ∧ t.readReg d = v ∧ t.pc = wrap ((uval s.pc : Int) + 1) ∧
      OnlyRegisterWritten d s t ∧ t.draws = s.draws :=
  ⟨_, writeBack_next d v s, readReg_writeReg_advance d v s, rfl, onlyRegisterWritten_writeReg d v s, rfl⟩

theorem raise_answers (c : Cause) (s : Arch p) : ∃ t, raise c s = .next ⟨p, t⟩ ∧ ErrorHalted c s t :=
  ⟨_, raise_next c s, errorHalted_errorHalt c s⟩

/-! ## Copy, sum, difference, product (R132 to R135, R142) -/

/-- Settles O26: `MOV` writes the source's value back. -/
theorem movCopiesARegister : Obligations.MovCopiesARegister :=
  fun _ d r s => ⟨hasEncoding_opcode (.mov d r), writeBack_answers d (s.readReg r) s⟩

/-- Settles O27: each of the three writes its wrapped result back. -/
theorem addSubMulWriteTheWrappedResult : Obligations.AddSubMulWriteTheWrappedResult := by
  intro p d r s
  refine ⟨⟨hasEncoding_opcode (.add d r), ?_⟩, ⟨hasEncoding_opcode (.sub d r), ?_⟩,
    ⟨hasEncoding_opcode (.mul d r), ?_⟩⟩
  · exact writeBack_answers d (addResult (s.readReg d) (s.readReg r)) s
  · exact writeBack_answers d (subResult (s.readReg d) (s.readReg r)) s
  · exact writeBack_answers d (mulResult (s.readReg d) (s.readReg r)) s

theorem addResult_eq_add (a b : Word n) : addResult a b = a + b := by
  rw [addResult, wrap, BitVec.ofInt_add, BitVec.ofInt_toInt, BitVec.ofInt_toInt]

theorem subResult_eq_sub (a b : Word n) : subResult a b = a - b := by
  rw [subResult, wrap, Int.sub_eq_add_neg, BitVec.ofInt_add, BitVec.ofInt_neg, BitVec.ofInt_toInt, BitVec.ofInt_toInt,
    BitVec.sub_eq_add_neg]

/-- Settles O33: the two instructions add and subtract words, where subtracting what was added restores the summand;
`SUB` takes the operand that `ADD` left, the sum itself where the two registers are one. -/
theorem subAfterAddRestoresTheRegister : Obligations.SubAfterAddRestoresTheRegister := by
  intro p d r s
  obtain ⟨t, hadd, ht, -, ⟨hother, -⟩, -⟩ := writeBack_answers d (addResult (s.readReg d) (s.readReg r)) s
  obtain ⟨u, hsub, hu, -⟩ := writeBack_answers d (subResult (t.readReg d) (t.readReg r)) t
  rw [subResult_eq_sub] at hu
  refine ⟨t, u, hadd, hsub, fun hne => ?_, fun heq => ?_⟩
  · rw [hu, ht, hother r hne.symm, addResult_eq_add, BitVec.add_sub_cancel]
  · rw [hu, heq, sub_self]

/-! ## Quotient (R12, R136) -/

theorem floorDiv_bounds_of_pos (a : Int) {b : Int} (hb : 0 < b) :
    floorDiv a b * b ≤ a ∧ a < (floorDiv a b + 1) * b := by
  rw [floorDiv, Int.fdiv_eq_ediv_of_nonneg a hb.le]
  exact ⟨Int.ediv_mul_le a hb.ne', Int.lt_ediv_add_one_mul_self a hb⟩

/-- Negating both operands leaves the quotient as it is, so the bounds for a negative divisor are those for a positive
one, negated. -/
theorem floorDiv_bounds_of_neg (a : Int) {b : Int} (hb : b < 0) :
    floorDiv a b * b ≥ a ∧ a > (floorDiv a b + 1) * b := by
  have hneg : floorDiv (-a) (-b) = floorDiv a b := Int.neg_fdiv_neg a b
  obtain ⟨hle, hlt⟩ := floorDiv_bounds_of_pos (-a) (Int.neg_pos_of_neg hb)
  rw [hneg, Int.mul_neg] at hle hlt
  exact ⟨Int.neg_le_neg_iff.mp hle, Int.neg_lt_neg_iff.mp hlt⟩

theorem execDiv_of_ne_zero {d r : RegIdx} {s : Arch p} (h : sval (s.readReg r) ≠ 0) :
    execDiv d r ⟨p, s⟩ = writeBack d (wrap (floorDiv (sval (s.readReg d)) (sval (s.readReg r)))) s := by
  rw [execDiv, divResult, if_neg h]

theorem execDiv_of_zero {d r : RegIdx} {s : Arch p} (h : sval (s.readReg r) = 0) :
    execDiv d r ⟨p, s⟩ = raise (.arithmeticFault .divZero) s := by
  rw [execDiv, divResult_eq_none.mpr h]

/-- Settles O29: the quotient is `floorDiv` of the signed values, which meets the bounds for either sign of the divisor;
the divisor 0 raises. -/
theorem divWritesTheFloorQuotient : Obligations.DivWritesTheFloorQuotient := by
  intro p d r s
  refine ⟨hasEncoding_opcode (.div d r), fun hne => ?_, fun hzero => ?_⟩
  · obtain ⟨t, ht, hd, hframe⟩ := writeBack_answers d (wrap (floorDiv (sval (s.readReg d)) (sval (s.readReg r)))) s
    exact ⟨t, _, (execDiv_of_ne_zero hne).trans ht, hd, floorDiv_bounds_of_pos _, floorDiv_bounds_of_neg _, hframe⟩
  · have hval : sval (s.readReg r) = 0 := by rw [hzero, sval, BitVec.ofNat_eq_ofNat, BitVec.toInt_zero]
    obtain ⟨t, ht, hhalt⟩ := raise_answers (.arithmeticFault .divZero) s
    exact ⟨t, (execDiv_of_zero hval).trans ht, hhalt⟩

/-! ## And, or, complement (R137 to R139) -/

/-- Settles O30: the word written is the bitwise operation's, whose bits the library gives. -/
theorem andOrNotActBitByBit : Obligations.AndOrNotActBitByBit := by
  intro p d r s
  refine ⟨⟨hasEncoding_opcode (.and d r), ?_⟩, ⟨hasEncoding_opcode (.or d r), ?_⟩,
    ⟨hasEncoding_opcode (.not d r), ?_⟩⟩
  · obtain ⟨t, ht, hd, hframe⟩ := writeBack_answers d (s.readReg d &&& s.readReg r) s
    exact ⟨t, ht, fun k _ => by rw [hd, BitVec.getLsbD_and], hframe⟩
  · obtain ⟨t, ht, hd, hframe⟩ := writeBack_answers d (s.readReg d ||| s.readReg r) s
    exact ⟨t, ht, fun k _ => by rw [hd, BitVec.getLsbD_or], hframe⟩
  · obtain ⟨t, ht, hd, hframe⟩ := writeBack_answers d (~~~ s.readReg r) s
    exact ⟨t, ht, fun k hk => by simp [hd, hk], hframe⟩

/-! ## Shifts (R140, R141) -/

/-- Shifting left by the width or more leaves no bit, so the model's bound on the amount does not show. -/
theorem shlResult_eq_shiftLeft (a : Word n) (k : Nat) : shlResult a k = a <<< k := by
  rw [shlResult]
  rcases Nat.le_total k n with hk | hk
  · rw [Nat.min_eq_left hk]
  · rw [Nat.min_eq_right hk, BitVec.shiftLeft_eq_zero le_rfl, BitVec.shiftLeft_eq_zero hk]

theorem wrap_two_pow (k : Nat) : (wrap (2 ^ k) : Word n) = BitVec.twoPow n k := by
  apply BitVec.eq_of_toNat_eq
  rw [BitVec.toNat_twoPow, ← BitVec.toNat_ofNat, ← BitVec.ofInt_natCast, Nat.cast_pow, Nat.cast_ofNat]

theorem shlResult_eq_wrap (a : Word n) (k : Nat) : shlResult a k = wrap (sval a * 2 ^ k) := by
  rw [shlResult_eq_shiftLeft, BitVec.shiftLeft_eq_mul_twoPow, ← wrap_two_pow, wrap, wrap, BitVec.ofInt_mul,
    BitVec.ofInt_toInt]

/-- Shifting right by the width or more leaves the sign in every bit, so the model's bound on the amount does not
show. -/
theorem shrResult_eq_sshiftRight (a : Word n) (k : Nat) : shrResult a k = a.sshiftRight k := by
  rw [shrResult]
  rcases Nat.le_total k n with hk | hk
  · rw [Nat.min_eq_left hk]
  · rw [Nat.min_eq_right hk]
    apply BitVec.eq_of_getLsbD_eq
    intro i _
    have hall : ¬ n + i < n := by omega
    have hall' : ¬ k + i < n := by omega
    rw [BitVec.getLsbD_sshiftRight, BitVec.getLsbD_sshiftRight, if_neg hall, if_neg hall']

theorem shrResult_eq_wrap (a : Word n) (k : Nat) : shrResult a k = wrap (sval a / 2 ^ k) := by
  rw [shrResult_eq_sshiftRight, BitVec.sshiftRight, Int.shiftRight_eq_div_pow, Nat.cast_pow, Nat.cast_ofNat]

theorem execShift_of_nonneg (f : Word p.xlen → Nat → Word p.xlen) (d : RegIdx) {r : RegIdx} {s : Arch p}
    (h : 0 ≤ sval (s.readReg r)) :
    execShift f d r s = writeBack d (f (s.readReg d) (sval (s.readReg r)).toNat) s := by
  rw [execShift, shiftAmount, if_neg h.not_gt]

/-- A shift by a negative amount raises, whichever shift it is. -/
theorem execShift_of_neg (f : Word p.xlen → Nat → Word p.xlen) (d : RegIdx) {r : RegIdx} {s : Arch p}
    (h : sval (s.readReg r) < 0) :
    ∃ t, execShift f d r s = .next ⟨p, t⟩ ∧ ErrorHalted (.arithmeticFault .negShift) s t := by
  rw [execShift, shiftAmount_eq_none.mpr h]
  exact raise_answers (.arithmeticFault .negShift) s

/-- Settles O31: shifting left multiplies by the power of two, whatever the amount. -/
theorem shlWritesTheLowBitsOfTheShiftedValue : Obligations.ShlWritesTheLowBitsOfTheShiftedValue := by
  intro p d r s
  refine ⟨hasEncoding_opcode (.shl d r), fun hnonneg => ?_, execShift_of_neg shlResult d⟩
  rw [← shlResult_eq_wrap]
  obtain ⟨t, ht, hd, hframe⟩ := writeBack_answers d (shlResult (s.readReg d) (sval (s.readReg r)).toNat) s
  exact ⟨t, (execShift_of_nonneg shlResult d hnonneg).trans ht, hd, hframe⟩

/-- Settles O32: shifting right divides by the power of two and rounds down, whatever the amount. -/
theorem shrWritesTheFloorOfTheShiftedValue : Obligations.ShrWritesTheFloorOfTheShiftedValue := by
  intro p d r s
  refine ⟨hasEncoding_opcode (.shr d r), fun hnonneg => ?_, execShift_of_neg shrResult d⟩
  obtain ⟨t, ht, hd, hframe⟩ := writeBack_answers d (shrResult (s.readReg d) (sval (s.readReg r)).toNat) s
  have hpos : (0 : Int) < 2 ^ (sval (s.readReg r)).toNat := by positivity
  exact ⟨t, _, (execShift_of_nonneg shrResult d hnonneg).trans ht, hd.trans (shrResult_eq_wrap _ _),
    Int.ediv_mul_le _ hpos.ne', Int.lt_ediv_add_one_mul_self _ hpos, hframe⟩

end Sys2Proof.Machine
end

section
/-! PROOFS. Comparison: what `CMP` does to the flags and what it answers (spec/42_compare.md, R160). -/

namespace Sys2Proof.Machine

variable {p : Config.Params}

/-- Of the three relations of two integers exactly one holds, and `CMP` sets the flag of that one. -/
theorem setCompare_eq_or (f : Flags) (A B : Int) :
    f.setCompare A B =
      { f with eq := f.eq || decide (A = B), ab := f.ab || decide (A > B), be := f.be || decide (A < B) } := by
  unfold Flags.setCompare
  rcases lt_trichotomy A B with hlt | heq | hgt
  · simp [hlt, hlt.ne, hlt.not_gt]
  · simp [heq]
  · simp [hgt, hgt.ne', hgt.not_gt]

theorem execCmp_next (a b : RegIdx) (s : Arch p) :
    execCmp a b ⟨p, s⟩ = .next ⟨p, (s.setFlags { s.flags with
      eq := s.flags.eq || decide (sval (s.readReg a) = sval (s.readReg b))
      ab := s.flags.ab || decide (sval (s.readReg a) > sval (s.readReg b))
      be := s.flags.be || decide (sval (s.readReg a) < sval (s.readReg b)) }).advance⟩ := by
  rw [execCmp, setCompare_eq_or]

/-- Settles O34: in the state that `CMP` answers, the three flags are set by the signed values and `pc` has moved on;
every other component is the old one. -/
theorem cmpSetsExactlyOneFlag : Obligations.CmpSetsExactlyOneFlag :=
  fun _ a b s => ⟨hasEncoding_opcode (.cmp a b), _, execCmp_next a b s, rfl, rfl, rfl, rfl, rfl, rfl, rfl, rfl,
    fun _ => rfl, rfl, fun _ => rfl, ⟨rfl, rfl⟩, rfl, rfl⟩

end Sys2Proof.Machine
end

section
/-! PROOFS. Loads and stores: what `LW` answers in each case of the read, and the one cell `SW` writes
(spec/43_load_store.md, R170 to R172; spec/20_memory.md, R54, R55). -/

namespace Sys2Proof.Machine

variable {p : Config.Params}

theorem memWrite_sameMemoryBut (s : Arch p) (a v : Word p.xlen) : SameMemoryBut a s (memWrite s a v) :=
  fun _ hne => Memory.read_write_other s.mem v hne

theorem execSw_next (r : RegIdx) (off : Int) (b : RegIdx) (s : Arch p) :
    execSw r off b ⟨p, s⟩ = .next ⟨p, (memWrite s (effectiveAddress s off b) (s.readReg r)).advance⟩ := rfl

/-- Settles O35: a word that is read, fixed or drawn is written back, the draw from the state with its counter advanced;
an unwritten cell under `Fault` raises. -/
theorem loadReturnsTheCellOrFollowsTheParameter : Obligations.LoadReturnsTheCellOrFollowsTheParameter := by
  intro p r off b s
  refine ⟨hasEncoding_opcode (.lw r off b), fun v hwritten => ?_,
    fun hunwritten => ⟨fun v hvalue => ?_, fun hany => ?_, fun hfault => ?_⟩⟩
  · obtain ⟨t, ht, hframe⟩ := writeBack_answers r v s
    exact ⟨t, (execLw_of_written hwritten).trans ht, hframe⟩
  · obtain ⟨t, ht, hframe⟩ := writeBack_answers r v s
    exact ⟨t, (execLw_of_value hunwritten hvalue).trans ht, hframe⟩
  · obtain ⟨t, ht, hframe⟩ := writeBack_answers r (Config.drawWord p.xlen s.draws) { s with draws := s.draws + 1 }
    exact ⟨t, (execLw_of_any hunwritten hany).trans ht, hframe⟩
  · obtain ⟨t, ht, hhalt⟩ := raise_answers .memoryFault s
    exact ⟨t, (execLw_of_fault hunwritten hfault).trans ht, hhalt⟩

/-- Settles O36: in the state that `SW` answers, the memory is the old one with the cell at the effective address
written, and `pc` has moved on; every other component is the old one. -/
theorem storeWritesOneWord : Obligations.StoreWritesOneWord :=
  fun _ r off b s => ⟨hasEncoding_opcode (.sw r off b), _, execSw_next r off b s, Memory.read_write_same s.mem _ _,
    memWrite_sameMemoryBut s _ _, rfl, fun _ => rfl, rfl, rfl, ⟨rfl, rfl⟩, rfl, rfl⟩

end Sys2Proof.Machine
end

section
/-! PROOFS. Control transfer: the jumps, calls and returns, the masked branch, and that no other instruction reads the
flags (spec/44_control_flow.md, R180 to R192). -/

namespace Sys2Proof.Machine

variable {p : Config.Params}

/-! ## Jumps and `NOP` (R181, R182, R192) -/

/-- Settles O38: each of the three is a jump, which writes `pc` alone. -/
theorem jumpsAndNopChangeOnlyThePc : Obligations.JumpsAndNopChangeOnlyThePc :=
  fun _ off b s =>
    ⟨⟨hasEncoding_opcode (.jpc off), _, rfl, rfl, rfl, onlyControlChanged_jump (relativeTarget s.pc off) s⟩,
      ⟨hasEncoding_opcode (.jr b), _, rfl, rfl, rfl, onlyControlChanged_jump (s.readReg b) s⟩,
      ⟨hasEncoding_opcode .nop, _, rfl, rfl, rfl, onlyControlChanged_jump (nextPc s.pc) s⟩⟩

/-! ## Calls and returns (R185 to R189) -/

theorem execCall_of_not_full {s : Arch p} (b : RegIdx) (h : p.csDepth ≠ some s.cs.length) :
    execCall b ⟨p, s⟩ = .next ⟨p, (s.pushCall s.pc).jump (s.readReg b)⟩ := by
  rw [execCall, if_neg fun hfull => h (callStackFull_iff.mp hfull)]

theorem execCall_of_full {s : Arch p} (b : RegIdx) (h : p.csDepth = some s.cs.length) :
    execCall b ⟨p, s⟩ = raise .callStackOverflow s := by
  rw [execCall, if_pos (callStackFull_iff.mpr h)]

theorem execRet_of_concat {s : Arch p} {below : List (Word p.xlen)} {v : Word p.xlen} (h : s.cs = below ++ [v]) :
    execRet ⟨p, s⟩ = .next ⟨p, Arch.jump { s with cs := below } (nextPc v)⟩ := by
  rw [execRet, popCall_concat h]

theorem execRet_of_empty {s : Arch p} (h : s.cs = []) :
    execRet ⟨p, s⟩ = if p.retEmptyIsError then raise .retEmptyStack s else haltNormal .retEmptyStack s := by
  rw [execRet, popCall_eq_none.mpr h]

/-- Settles O39: the test of `CALL` is whether the stack is as deep as a finite CS_DEPTH. -/
theorem callPushesItsOwnAddress : Obligations.CallPushesItsOwnAddress := by
  intro p b s
  refine ⟨hasEncoding_opcode (.call b), fun hroom => ?_, fun hfull => ?_⟩
  · exact ⟨_, execCall_of_not_full b hroom, rfl, rfl, onlyControlChanged_callStack (s.cs ++ [s.pc]) (s.readReg b) s⟩
  · exact ⟨_, execCall_of_full b hfull, errorHalted_errorHalt _ s⟩

/-- Settles O40: the pop takes the last entry, whose following address `RET` jumps to. -/
theorem retPopsAndReturnsPastTheCall : Obligations.RetPopsAndReturnsPastTheCall :=
  fun _ s below v hcs => ⟨hasEncoding_opcode .ret, _, execRet_of_concat hcs, rfl, rfl,
    onlyControlChanged_callStack below (nextPc v) s⟩

/-- Settles O41: with nothing to pop, `RET_EMPTY_IS_ERROR` selects between the two halts. -/
theorem retOnAnEmptyStackHalts : Obligations.RetOnAnEmptyStackHalts := by
  intro p s hcs
  refine ⟨fun herror => ?_, fun hnormal => ?_⟩
  · exact ⟨_, (execRet_of_empty hcs).trans (if_pos herror), errorHalted_errorHalt _ s⟩
  · exact ⟨_, (execRet_of_empty hcs).trans (if_neg (by simp [hnormal])), normalHalted_normalHalt _ s⟩

/-- Settles O44: after the `CALL` the CORE is RUNNING at the `RET`, with the `CALL`'s address on top of the old stack;
the `RET` takes that one off and goes to the address after it. -/
theorem callThenRetReturnsPastTheCall : Obligations.CallThenRetReturnsPastTheCall := by
  intro p s b str hcall hroom hstr hret
  have hrunning : s.status = .running := hcall.1
  have hfetch : Fetches ((s.pushCall s.pc).jump (s.readReg b)) .ret := ⟨hrunning, str, hstr, hret⟩
  exact ⟨_, _, (step_of_fetches hcall).trans (execCall_of_not_full b hroom),
    (step_of_fetches hfetch).trans (execRet_of_concat (pushCall_cs s s.pc)), rfl, rfl,
    onlyControlChanged_callStack s.cs (nextPc s.pc) s⟩

/-! ## The masked branch (R190, R191) -/

/-- Two patterns agree under a mask when they agree in every bit that the mask selects. -/
theorem and_eq_and_iff {n : Nat} {a b m : BitVec n} :
    a &&& m = b &&& m ↔ ∀ k < n, m.getLsbD k = true → a.getLsbD k = b.getLsbD k := by
  constructor
  · intro h k _ hk
    simpa [hk] using congrArg (fun x => x.getLsbD k) h
  · intro h
    apply BitVec.eq_of_getLsbD_eq
    intro k hk
    cases hm : m.getLsbD k with
    | false => simp [hm]
    | true => simp [hm, h k hk hm]

/-- `BRFL` is a jump, whose target the masked flags select. -/
theorem execBrfl_next (b : RegIdx) (e m : FlagLiteral) (s : Arch p) :
    execBrfl b e m ⟨p, s⟩ =
      .next ⟨p, s.jump (if s.flags.pack &&& m = e &&& m then s.readReg b else nextPc s.pc)⟩ := by
  simp only [execBrfl, flagsMatch_iff]
  split <;> rfl

/-- The masked comparison of the packed flags, flag by flag. -/
theorem pack_and_eq_iff {f : Flags} {e m : FlagLiteral} :
    f.pack &&& m = e &&& m ↔
      (m.getLsbD 6 = true → f.ov = e.getLsbD 6) ∧ (m.getLsbD 5 = true → f.ab = e.getLsbD 5) ∧
      (m.getLsbD 4 = true → f.eq = e.getLsbD 4) ∧ (m.getLsbD 3 = true → f.be = e.getLsbD 3) ∧
      (m.getLsbD 2 = true → f.bt = e.getLsbD 2) ∧ (m.getLsbD 1 = true → f.co = e.getLsbD 1) ∧
      (m.getLsbD 0 = true → f.er = e.getLsbD 0) := by
  obtain ⟨ov, ab, eq, be, bt, co, er⟩ := pack_getLsbD f
  rw [and_eq_and_iff, ← ov, ← ab, ← eq, ← be, ← bt, ← co, ← er]
  constructor
  · intro h
    exact ⟨h 6 (by decide), h 5 (by decide), h 4 (by decide), h 3 (by decide), h 2 (by decide), h 1 (by decide),
      h 0 (by decide)⟩
  · rintro ⟨h6, h5, h4, h3, h2, h1, h0⟩ k hk
    interval_cases k <;> assumption

/-- Settles O43: the masked patterns are equal exactly when every masked flag has its expected value. -/
theorem brflTestIsFlagByFlag : Obligations.BrflTestIsFlagByFlag :=
  fun _ b e m s => ⟨_, execBrfl_next b e m s, if_congr pack_and_eq_iff rfl rfl⟩

/-! ## No other instruction reads the flags (R190) -/

/-- The results `r` and `r'` are those from `s` and from `s` with the flags `f`: they differ in the flags alone, to each
of which the same was done. -/
def SameResultButFlags (s : Arch p) (f : Flags) (r r' : Result) : Prop :=
  ∃ (t : Arch p) (g : Flags), r = .next ⟨p, t⟩ ∧ r' = .next ⟨p, t.setFlags g⟩ ∧ SameFlagEffect s.flags t.flags f g

section FlagNonInterference

variable {s : Arch p} {f : Flags}

/-- A next state that carries the flags along. -/
theorem SameResultButFlags.carried (t : Arch p) (h : t.flags = s.flags) :
    SameResultButFlags s f (.next ⟨p, t⟩) (.next ⟨p, t.setFlags f⟩) :=
  ⟨t, f, rfl, rfl, by simp [SameFlagEffect, h]⟩

/-- An error halt sets `F.ER` whatever the flags, and carries the others along. -/
theorem SameResultButFlags.raise (c : Cause) : SameResultButFlags s f (raise c s) (raise c (s.setFlags f)) :=
  ⟨s.errorHalt c, { f with er := true }, rfl, rfl, by simp [SameFlagEffect]⟩

theorem memRead_setFlags (a : Word p.xlen) :
    memRead (s.setFlags f) a = (memRead s a).map fun r => (r.1, r.2.setFlags f) := by
  unfold memRead
  rw [setFlags_mem]
  cases Memory.read s.mem a with
  | some v => rfl
  | none => cases p.unwrittenLoad <;> rfl

theorem popCall_setFlags : (s.setFlags f).popCall = s.popCall.map fun r => (r.1, r.2.setFlags f) := by
  unfold Arch.popCall
  rw [setFlags_cs]
  cases s.cs.getLast? <;> rfl

theorem effectiveAddress_setFlags (off : Int) (b : RegIdx) :
    effectiveAddress (s.setFlags f) off b = effectiveAddress s off b := rfl

theorem SameResultButFlags.execLw (t : RegIdx) (off : Int) (b : RegIdx) :
    SameResultButFlags s f (execLw t off b ⟨p, s⟩) (execLw t off b ⟨p, s.setFlags f⟩) := by
  simp only [Machine.execLw, effectiveAddress_setFlags, memRead_setFlags]
  cases h : memRead s (effectiveAddress s off b) with
  | none => exact .raise _
  | some r =>
    obtain ⟨n, hn⟩ := memRead_eq_some h
    exact .carried _ (by simp [hn])

theorem SameResultButFlags.execCall (b : RegIdx) :
    SameResultButFlags s f (execCall b ⟨p, s⟩) (execCall b ⟨p, s.setFlags f⟩) := by
  by_cases h : p.csDepth = some s.cs.length
  · rw [execCall_of_full b h, execCall_of_full (s := s.setFlags f) b h]
    exact .raise _
  · rw [execCall_of_not_full b h, execCall_of_not_full (s := s.setFlags f) b h]
    exact .carried ((s.pushCall s.pc).jump (s.readReg b)) rfl

theorem SameResultButFlags.execRet : SameResultButFlags s f (execRet ⟨p, s⟩) (execRet ⟨p, s.setFlags f⟩) := by
  simp only [Machine.execRet, popCall_setFlags]
  cases h : s.popCall with
  | some r =>
    obtain ⟨below, -, hbelow⟩ := popCall_eq_some h
    exact .carried _ (by simp [hbelow])
  | none =>
    cases p.retEmptyIsError with
    | true => exact .raise _
    | false => exact .carried (s.normalHalt .retEmptyStack) rfl

/-- Of the instructions other than `BRFL`, `CMP` and those that raise write flags, and none of them reads one. -/
theorem exec_sameResultButFlags {i : Instr} (hi : i.opcode ≠ .brfl) :
    SameResultButFlags s f (exec i ⟨p, s⟩) (exec i ⟨p, s.setFlags f⟩) := by
  cases i with
  | brfl => exact absurd rfl hi
  | cmp a b => exact ⟨_, _, rfl, rfl, setCompare_sameFlagEffect s.flags f _ _⟩
  | div d r =>
    simp only [exec, execDiv, setFlags_readReg]
    cases divResult (s.readReg d) (s.readReg r) with
    | none => exact .raise _
    | some q => exact .carried _ rfl
  | shl d r | shr d r =>
    simp only [exec, execShl, execShr, execShift, setFlags_readReg]
    cases shiftAmount (s.readReg r) with
    | none => exact .raise _
    | some n => exact .carried _ rfl
  | lw t off b => exact .execLw t off b
  | call b => exact .execCall b
  | ret => exact .execRet
  | mov | add | sub | mul | and | or | not | sw | jpc | jr | nop => exact .carried _ rfl

end FlagNonInterference

/-- Settles O42: `BRFL` is a jump to the target its test selects; the other instructions leave the flags as they are,
or write them without reading them. -/
theorem brflBranchesOnTheMaskedFlags : Obligations.BrflBranchesOnTheMaskedFlags := by
  refine ⟨fun p b e m s => ⟨hasEncoding_opcode (.brfl b e m), _, execBrfl_next b e m s, ?_⟩,
    fun p i s f hi => exec_sameResultButFlags hi⟩
  exact ⟨fun htaken => if_pos htaken, fun hnot => if_neg hnot, rfl, onlyControlChanged_jump _ s⟩

end Sys2Proof.Machine
end

section
/-! PROOFS. Exceptions and the host's writes: the two halts, which step reports which cause, and what a command of the
host leaves unchanged (spec/60_exceptions.md, R200 to R218). -/

namespace Sys2Proof.Machine

variable {p : Config.Params} {s t : Arch p}

/-! ## The two halts (R204, R205) -/

/-- Settles O22: each primitive answers the state of its halt. -/
theorem haltsWriteOnlyTheirOwnState : Obligations.HaltsWriteOnlyTheirOwnState :=
  fun _ c s => ⟨raise_answers c s, _, haltNormal_next c s, normalHalted_normalHalt c s⟩

/-! ## Which step halts, and with which cause (R201, R202) -/

/-- The table of R201: when a step of a RUNNING core halts with the cause. No step halts with `NONE`. -/
def ReportedWhen (s : Arch p) : Cause → Prop
  | .none => False
  | .retEmptyStack => Fetches s .ret ∧ s.cs = []
  | .unknownOpcode => ∃ str, fetch s = some str ∧ TextFails p.xlen str .unknownOpcode
  | .malformedInstruction => ∃ str, fetch s = some str ∧ TextFails p.xlen str .malformedInstruction
  | .outOfRangeRegister => ∃ str, fetch s = some str ∧ TextFails p.xlen str .outOfRangeRegister
  | .arithmeticFault .divZero => ∃ d r, Fetches s (.div d r) ∧ s.readReg r = 0
  | .arithmeticFault .negShift => ∃ d r, (Fetches s (.shl d r) ∨ Fetches s (.shr d r)) ∧ sval (s.readReg r) < 0
  | .fetchFault => s.prog.length ≤ uval s.pc
  | .memoryFault => ∃ r off b, Fetches s (.lw r off b) ∧ p.unwrittenLoad = .fault ∧
      Memory.read s.mem (effectiveAddress s off b) = none
  | .callStackOverflow => ∃ b, Fetches s (.call b) ∧ p.csDepth = some s.cs.length

/-- The one situation in which a step halts normally (R188, R202). -/
def HaltsNormally (s : Arch p) : Prop := Fetches s .ret ∧ s.cs = [] ∧ p.retEmptyIsError = false

theorem ReportedWhen.ne_none {c : Cause} (h : ReportedWhen s c) : c ≠ .none := by
  rintro rfl
  exact h

theorem sval_eq_zero_iff {n : Nat} {a : Word n} : sval a = 0 ↔ a = 0 := by
  rw [← BitVec.toInt_inj, BitVec.ofNat_eq_ofNat, BitVec.toInt_zero]

theorem reportedWhen_of_decodeFailure {str : Text} {d : DecodeCause} (hf : fetch s = some str)
    (hd : decode p.xlen str = .error d) : ReportedWhen s (decodeCauseToCause d) := by
  cases d <;> exact ⟨str, hf, decode_eq_error.mp hd⟩

theorem reportedWhen_of_execRaises {i : Instr} {c : Cause} (hf : Fetches s i) (hr : ExecRaises s i c) :
    ReportedWhen s c := by
  cases hr with
  | divZero d r hzero => exact ⟨d, r, hf, sval_eq_zero_iff.mp hzero⟩
  | shlNegative d r hneg => exact ⟨d, r, .inl hf, hneg⟩
  | shrNegative d r hneg => exact ⟨d, r, .inr hf, hneg⟩
  | loadUnwritten r off b hunwritten hfault => exact ⟨r, off, b, hf, hfault, hunwritten⟩
  | callFull b hfull => exact ⟨b, hf, hfull⟩
  | retEmpty hcs => exact ⟨hf, hcs⟩

/-- A step is an error halt with a cause that R201's table gives, the normal halt, or leaves the run state as it is. -/
theorem step_halt_cases (h : step ⟨p, s⟩ = .next ⟨p, t⟩) :
    (∃ c, ReportedWhen s c ∧ t = s.errorHalt c) ∨ (HaltsNormally s ∧ t = s.normalHalt .retEmptyStack) ∨
      SameRunState s t := by
  obtain ⟨-, he⟩ := step_cases h
  cases he with
  | fetchFault _ hf => exact .inl ⟨.fetchFault, fetch_eq_none_iff.mp hf, rfl⟩
  | decodeFailure _ hf hd => exact .inl ⟨_, reportedWhen_of_decodeFailure hf hd, rfl⟩
  | execute hf he =>
    cases he with
    | errorHalt hr => exact .inl ⟨_, reportedWhen_of_execRaises hf hr, rfl⟩
    | normalHalt hcs hnormal => exact .inr (.inl ⟨⟨hf, hcs, hnormal⟩, rfl⟩)
    | _ => exact .inr (.inr ⟨rfl, rfl⟩)

theorem step_of_haltsNormally (h : HaltsNormally s) : step ⟨p, s⟩ = .next ⟨p, s.normalHalt .retEmptyStack⟩ := by
  obtain ⟨hf, hcs, hnormal⟩ := h
  exact (step_of_fetches hf).trans ((execRet_of_empty hcs).trans (if_neg (by simp [hnormal])))

/-- The converse of `step_halt_cases`: in each situation of R201's table, the step reports that row's cause. -/
theorem step_of_reportedWhen {c : Cause} (hs : s.status = .running) (h : ReportedWhen s c) :
    ∃ t, step ⟨p, s⟩ = .next ⟨p, t⟩ ∧ t.cause = c := by
  cases c with
  | none => exact h.elim
  | retEmptyStack =>
    obtain ⟨hf, hcs⟩ := h
    rw [step_of_fetches hf, exec, execRet_of_empty hcs]
    split <;> exact ⟨_, rfl, rfl⟩
  | unknownOpcode | malformedInstruction | outOfRangeRegister =>
    obtain ⟨str, hf, hfails⟩ := h
    exact ⟨_, step_of_decodeFailure hs hf (decode_eq_error.mpr hfails), rfl⟩
  | arithmeticFault info =>
    cases info with
    | divZero =>
      obtain ⟨d, r, hf, hzero⟩ := h
      exact ⟨_, (step_of_fetches hf).trans (execDiv_of_zero (sval_eq_zero_iff.mpr hzero)), rfl⟩
    | negShift =>
      obtain ⟨d, r, hf | hf, hneg⟩ := h
      · obtain ⟨t, ht, -, hcause, -⟩ := execShift_of_neg shlResult d hneg
        exact ⟨t, (step_of_fetches hf).trans ht, hcause⟩
      · obtain ⟨t, ht, -, hcause, -⟩ := execShift_of_neg shrResult d hneg
        exact ⟨t, (step_of_fetches hf).trans ht, hcause⟩
  | fetchFault => exact ⟨_, step_of_fetchFault hs (fetch_eq_none_iff.mpr h), rfl⟩
  | memoryFault =>
    obtain ⟨r, off, b, hf, hfault, hunwritten⟩ := h
    exact ⟨_, (step_of_fetches hf).trans (execLw_of_fault hunwritten hfault), rfl⟩
  | callStackOverflow =>
    obtain ⟨b, hf, hfull⟩ := h
    exact ⟨_, (step_of_fetches hf).trans (execCall_of_full b hfull), rfl⟩

theorem step_status_eq_haltedNormal_iff (h : step ⟨p, s⟩ = .next ⟨p, t⟩) :
    t.status = .haltedNormal ↔ HaltsNormally s := by
  have hs : s.status = .running := (step_cases h).1
  constructor
  · intro ht
    rcases step_halt_cases h with ⟨c, -, rfl⟩ | ⟨hnormal, -⟩ | ⟨hstatus, -⟩
    · cases ht
    · exact hnormal
    · simp [hstatus, hs] at ht
  · intro hnormal
    rw [step_of_haltsNormally hnormal] at h
    cases h
    rfl

theorem step_cause_eq_none_iff (hcause : s.cause = .none) (h : step ⟨p, s⟩ = .next ⟨p, t⟩) :
    t.cause = .none ↔ t.status = .running := by
  have hs : s.status = .running := (step_cases h).1
  rcases step_halt_cases h with ⟨c, hc, rfl⟩ | ⟨-, rfl⟩ | ⟨hstatus, hsame⟩
  · simpa using hc.ne_none
  · simp
  · simp [hstatus, hsame, hs, hcause]

/-- From a state with no cause, a step reports a cause exactly in the situation of its row of R201's table. -/
theorem step_cause_eq_iff (hcause : s.cause = .none) (h : step ⟨p, s⟩ = .next ⟨p, t⟩) {c : Cause} (hc : c ≠ .none) :
    t.cause = c ↔ ReportedWhen s c := by
  constructor
  · rintro rfl
    rcases step_halt_cases h with ⟨c, hreported, rfl⟩ | ⟨⟨hf, hcs, -⟩, rfl⟩ | ⟨-, hsame⟩
    · exact hreported
    · exact ⟨hf, hcs⟩
    · exact absurd (hsame.trans hcause) hc
  · intro hreported
    obtain ⟨u, hu, hu_cause⟩ := step_of_reportedWhen (step_cases h).1 hreported
    rw [hu] at h
    cases h
    exact hu_cause

/-- Settles O23: the step answers one of the two halts, or it has left the core RUNNING. -/
theorem haltsArePrecise : Obligations.HaltsArePrecise := by
  intro p s t h ht
  rcases step_halt_cases h with ⟨c, -, rfl⟩ | ⟨-, rfl⟩ | ⟨hstatus, -⟩
  · exact .inl (errorHalted_errorHalt c s)
  · exact .inr (normalHalted_normalHalt .retEmptyStack s)
  · exact absurd (hstatus.trans (step_cases h).1) ht

/-- Settles O24: of the two halts, the normal one has its own situation and the one cause RET_EMPTY_STACK. -/
theorem normalHaltOnlyByReturnOnEmptyStack : Obligations.NormalHaltOnlyByReturnOnEmptyStack := by
  intro p s t hcause h
  have hs : s.status = .running := (step_cases h).1
  refine ⟨step_status_eq_haltedNormal_iff h, ?_⟩
  rcases step_halt_cases h with ⟨c, -, rfl⟩ | ⟨-, rfl⟩ | ⟨hstatus, hsame⟩
  · simp
  · simp
  · simp [hstatus, hsame, hs, hcause]

/-- Settles O25: its clauses after the first are the rows of R201's table. -/
theorem causesAreReportedByTheirRaisers : Obligations.CausesAreReportedByTheirRaisers := by
  intro p s t hcause h
  have row {c : Cause} (hc : c ≠ .none) : t.cause = c ↔ ReportedWhen s c := step_cause_eq_iff hcause h hc
  exact ⟨step_cause_eq_none_iff hcause h, row nofun, row nofun, row nofun, row nofun, row nofun, row nofun, row nofun,
    row nofun, row nofun⟩

/-! ## The host's writes (R218) -/

/-- Settles O60: each command is one update of the state, and reading the memory after it is a law of the memory. -/
theorem hostWritesOnlyWhatTheCommandNames : Obligations.HostWritesOnlyWhatTheCommandNames := by
  intro p s
  refine ⟨fun k v => ?_, fun strs hlen => ?_, fun a v => ?_, fun a hwf => ?_, ?_⟩
  · exact ⟨s.writeReg k v, rfl, readReg_writeReg_same s k v, rfl, onlyRegisterWritten_writeReg k v s, rfl⟩
  · exact congrArg (Option.map _) (if_pos hlen)
  · exact ⟨memWrite s a v, rfl, Memory.read_write_same s.mem a v, memWrite_sameMemoryBut s a v, fun _ => rfl, rfl, rfl,
      rfl, ⟨rfl, rfl⟩, rfl, rfl⟩
  · exact ⟨clearCellCommand a s, rfl, Memory.read_clear_same a hwf, fun _ hne => Memory.read_clear_other s.mem hne,
      fun _ => rfl, rfl, rfl, rfl, ⟨rfl, rfl⟩, rfl, rfl⟩
  · exact ⟨clearMemoryCommand s, rfl, fun _ => rfl, fun _ => rfl, rfl, rfl, rfl, ⟨rfl, rfl⟩, rfl, rfl⟩

end Sys2Proof.Machine
end

section
/-! PROOFS. Reset: what it writes, and that no other command leads out of a halted state
(spec/70_reset_and_hazards.md, R230). -/

namespace Sys2Proof.Machine

variable {p : Config.Params}

/-- A halted core has no step, and the commands that write registers or memories do not write its status. -/
theorem hostCommand_status_of_not_running {s : Arch p} {s' : State} {c : HostCommand p.xlen}
    (hs : s.status ≠ .running) (h : hostCommand ⟨p, s⟩ c = some s') (hc : c ≠ .reset) :
    s'.arch.status = s.status := by
  cases c with
  | reset => exact absurd rfl hc
  | step =>
    cases h
    rw [stepCommand_of_not_running hs]
  | run n =>
    cases h
    rw [run_of_not_running n hs]
  | loadProgram strs =>
    obtain ⟨-, rfl⟩ := hostCommand_loadProgram h
    rfl
  | writeRegister | preload | clearCell | clearMemory =>
    cases h
    rfl

/-- Settles O58: `resetCommand` writes the zeroes and keeps the rest, and every other command keeps a halted status. -/
theorem resetZeroesAllButTheCallStack : Obligations.ResetZeroesAllButTheCallStack := by
  intro p s
  constructor
  · exact ⟨resetCommand s, rfl, resetCommand_readReg s, rfl, rfl, rfl, rfl, rfl, rfl, rfl, rfl, rfl, rfl, rfl, rfl,
      fun _ => rfl⟩
  · intro c s' hs h hrunning
    by_contra hc
    exact hs ((hostCommand_status_of_not_running hs h hc).symm.trans hrunning)

end Sys2Proof.Machine
end
